-- ==== Sys2Proof/Word.lean ====
section
/-! DEFINITION. The two bit-vector types of the machine: the byte of a memory cell, opcode or operand, and the word of a general register. -/

namespace Sys2Proof

/-- One byte: a memory cell (10_state.md R28), an opcode byte or an operand byte (30_encoding.md R60). -/
abbrev Byte := BitVec 8

/-- The value of a general register: `XLEN = 32` bits (00_scope.md R8, 10_state.md R20). -/
abbrev Word := BitVec 32

end Sys2Proof
end

