-- ==== Sys2Proof/Config.lean ====
section
/-! DEFINITION. The implementation parameters of 00_scope.md section 4. The machine leaves no value undefined, so there is no free value here (INVENTORY.md, "What the manual leaves open"). -/

namespace Sys2Proof

/-- `NREG`, the number of general registers: this hardware takes 8 (00_scope.md R7, 90_conflicts.md C5). -/
abbrev Config.nreg : Nat := 8

/-- `XLEN`, the width of a general register: this hardware takes 32 (00_scope.md R8). -/
abbrev Config.xlen : Nat := 32

/-- The `MEMSIZE` of the one machine `State.reset` describes. The spec leaves `MEMSIZE` open (00_scope.md R9):
every state carries its own capacity and every statement holds for each capacity.
DESIGN CHOICE, unsafe (log entry 1): 65536, so that every LOAD and STORE address exists after reset. -/
def Config.memSize : Nat := 65536

end Sys2Proof
end

