-- ==== Sys2Proof/Syntax.lean ====
section
/-! DEFINITION. The instruction set BF-CORE: one constructor per row of spec/opcode_table.json. -/

namespace Sys2Proof

/-- An instruction with its operand bytes in the order of the opcode table (30_encoding.md R60, R62, R64).
An operand is one whole byte, so every term is an encodable instruction; a register index of 8 or above and an
address at or above `MEMSIZE` are legal encodings whose error is raised at execution (30_encoding.md R66). -/
inductive Instr where
  /-- LOAD `0x01 reg addr` (41_data_transfer.md R100). -/
  | load (reg addr : Byte)
  /-- LOAD_IMM `0x02 reg value` (R101). -/
  | loadImm (reg value : Byte)
  /-- MOV `0x03 destReg srcReg` (R102). -/
  | mov (destReg srcReg : Byte)
  /-- STORE `0x04 reg addr` (R103). -/
  | store (reg addr : Byte)
  /-- ADD `0x10 regA regB` (42_arithmetic.md R120). -/
  | add (regA regB : Byte)
  /-- SUB `0x11 regA regB` (R121). -/
  | sub (regA regB : Byte)
  /-- MUL `0x12 regA regB` (R122). -/
  | mul (regA regB : Byte)
  /-- DIV `0x13 regA regB` (R123). -/
  | div (regA regB : Byte)
  /-- MOD `0x14 regA regB` (R124). -/
  | mod (regA regB : Byte)
  /-- NOT `0x20 regA` (43_logic.md R140). -/
  | not (regA : Byte)
  /-- NOP `0xFE` (44_control.md R150). -/
  | nop
  /-- HALT `0xFF` (R151). -/
  | halt
deriving DecidableEq, Repr

end Sys2Proof
end

