-- ==== Sys2Proof/Machine/State.lean ====
section
/-! DEFINITION. The machine's state as plain data, the errors its latch can hold, the ways a step can stop, and the state
right after reset. -/

namespace Sys2Proof.Machine

/-- An error kind with the info it reports (60_exceptions.md R160). The text of a message is not modelled (log entry 8). -/
inductive MachineError where
  /-- Code 1, raised by construction with a size that is not positive: the size given. -/
  | invalidSize (size : Int)
  /-- Code 2, raised by LOAD, STORE, an operand fetch at `pc = MEMSIZE` and host accesses: the address. -/
  | outOfBounds (addr : Int)
  /-- Code 3, raised by STORE, host writes and `loadProgram`: the value (for STORE, the unsigned reading of the register). -/
  | valueRange (value : Int)
  /-- Code 4, raised by `loadProgram`: the program length. -/
  | programTooLarge (length : Nat)
  /-- Code 5, raised by DIV and MOD: no info. -/
  | divisionByZero
  /-- Code 6, raised by the decode of an illegal opcode: the opcode byte. -/
  | unknownOpcode (opcode : Byte)
  /-- Code 7, raised by every instruction with a register operand: the register index. -/
  | registerIndex (index : Byte)
deriving DecidableEq, Repr

/-- The Memory: its capacity, fixed at construction, and its cells (10_state.md, opening; R28). `cells` lists the cells
that do not hold the value an unlisted cell reads as, by strictly rising address. -/
structure Memory where
  capacity : Nat
  cells : List Host.Cell
deriving DecidableEq, Repr

/-- The complete state (10_state.md, opening). -/
structure State where
  /-- `x[0] .. x[7]` (R20). -/
  regs : Vector Word Config.nreg
  /-- The index of the next byte to fetch (R23), a natural number as 00_scope.md R10 allows (log entry 3). -/
  pc : Nat
  /-- The halted flag (R25). -/
  halted : Bool
  /-- The fault latch (R27). -/
  fault : Option MachineError
  /-- `mem[0 .. MEMSIZE-1]` (R28). -/
  mem : Memory
deriving DecidableEq, Repr

/-- Why no step is enabled (40_execution_loop.md R87, R91). A step that raises an error is not one of these: it answers a
next state that holds the error in its latch (60_exceptions.md R166, log entry 2). -/
inductive Fault where
  /-- Raised by `step` when the halted flag is set and no fault is latched: R91's `Stop(HALTED)`, a good end of a run
  (70_reset_and_hazards.md R201). Exact, so safe: the hardware executes no step here (44_control.md R154). -/
  | halted
  /-- Raised by `step` when `pc ≥ MEMSIZE`, the flag clear and no fault latched: R91's `Stop(END_OF_MEMORY)`, a good end
  of a run. Exact, so safe. -/
  | endOfMemory
  /-- Raised by `step` when the latch holds an error: `run` reports it again and executes no step
  (40_execution_loop.md R87, 60_exceptions.md R168). Safe: BF's original could go on (92_eei_decisions.md D9). -/
  | latched (e : MachineError)
deriving DecidableEq, Repr

/-- Instructions without a meaning in this model. -/
inductive Refusal where
  /-- Raised by an arm of `exec` that has no meaning yet, with the row's mnemonic: no arm does. Safe. -/
  | notModelled (mnemonic : String)
deriving DecidableEq, Repr

/-- The machine right after construction with a memory of that capacity (10_state.md R31, column "after construction"). -/
def State.ofCapacity (capacity : Nat) : State where
  regs := Vector.replicate Config.nreg 0
  pc := 0
  halted := false
  fault := none
  mem := { capacity := capacity, cells := [] }

/-- The machine right after reset: every register 0, `pc` 0, Running, no fault, every cell 0 (10_state.md R31); its
capacity is `Config.memSize` (DESIGN CHOICE, log entry 1). -/
def State.reset : State := State.ofCapacity Config.memSize

end Sys2Proof.Machine
end

