-- ==== Sys2Proof/Machine/Alu.lean ====
section
/-! DEFINITION. The results of the arithmetic and logic instructions: computed on mathematical integers and reduced modulo
`2^XLEN` at the end (00_scope.md R12, 42_arithmetic.md R125). -/

namespace Sys2Proof.Machine

/-- ADD: `(u(x) + u(y)) mod 2^XLEN` (42_arithmetic.md R120). -/
def addWords (x y : Word) : Word := BitVec.ofNat 32 (x.toNat + y.toNat)

/-- SUB: `(u(x) - u(y)) mod 2^XLEN` (R121). -/
def subWords (x y : Word) : Word := BitVec.ofInt 32 ((x.toNat : Int) - y.toNat)

/-- MUL: the low `XLEN` bits of the product (R122). -/
def mulWords (x y : Word) : Word := BitVec.ofNat 32 (x.toNat * y.toNat)

/-- `trunc(s(x) / s(y))`, the quotient rounded toward zero (00_scope.md R12, 42_arithmetic.md R126). -/
def truncQuotient (x y : Word) : Int := x.toInt.tdiv y.toInt

/-- DIV for a divisor that is not 0: the truncated quotient `mod 2^XLEN` (R123, R126). -/
def divWords (x y : Word) : Word := BitVec.ofInt 32 (truncQuotient x y)

/-- MOD for a divisor that is not 0: the remainder of that quotient, with the sign of the dividend (R124, R126). -/
def modWords (x y : Word) : Word := BitVec.ofInt 32 (x.toInt - truncQuotient x y * y.toInt)

/-- The divisor check of DIV and MOD: `DivisionByZeroError` when the divisor is 0 (R123, R124). -/
def checkDivisor (f : Word → Word → Word) (x y : Word) : Except MachineError Word :=
  if y = 0 then .error .divisionByZero else .ok (f x y)

/-- NOT: all `XLEN` bits inverted (43_logic.md R140). -/
def notWord (x : Word) : Word := ~~~x

end Sys2Proof.Machine
end

