-- ==== Sys2Proof/Machine/Flags.lean ====
section
/-! DEFINITION. The flags: the halted flag is the only one (10_state.md R25, R26); no instruction computes a carry, overflow, zero or sign flag, and no flag is written as a side effect. -/

namespace Sys2Proof.Machine

/-- `halted <- b`: written by HALT and by `reset` only (10_state.md R25, 44_control.md R151). -/
def State.setHalted (s : State) (b : Bool) : State := { s with halted := b }

end Sys2Proof.Machine
end

