-- ==== Sys2Proof/Machine/Ops.lean ====
section
/-! DEFINITION. The named operations over memory, registers, the program counter and the fault latch: the primitives of
00_scope.md R13, the Memory of 20_memory.md, fault entry and the one way out of a fault. -/

namespace Sys2Proof.Machine

/-! ### Error kinds -/

/-- The numeric code of an error kind (60_exceptions.md R160). -/
def MachineError.code : MachineError → Nat
  | .invalidSize _ => 1
  | .outOfBounds _ => 2
  | .valueRange _ => 3
  | .programTooLarge _ => 4
  | .divisionByZero => 5
  | .unknownOpcode _ => 6
  | .registerIndex _ => 7

/-- The info an error reports, `none` for `DivisionByZeroError` (60_exceptions.md R160). -/
def MachineError.info : MachineError → Option Int
  | .invalidSize size => some size
  | .outOfBounds addr => some addr
  | .valueRange value => some value
  | .programTooLarge length => some length
  | .divisionByZero => none
  | .unknownOpcode opcode => some opcode.toNat
  | .registerIndex index => some index.toNat

/-! ### Memory -/

/-- What a cell that no list entry names holds: the construction value 0 (20_memory.md R41). -/
def Memory.unlisted : Byte := 0

/-- The value a cell list gives an address. -/
def Memory.lookup (a : Nat) : List Host.Cell → Byte
  | [] => Memory.unlisted
  | c :: cs => if c.1 = a then c.2 else Memory.lookup a cs

/-- The cell list with one address given a value, in the canonical form: the entry is dropped when the value is the one
an unlisted cell reads as. -/
def Memory.insert (a : Nat) (b : Byte) : List Host.Cell → List Host.Cell
  | [] => if b = Memory.unlisted then [] else [(a, b)]
  | c :: cs =>
    if a < c.1 then
      if b = Memory.unlisted then c :: cs else (a, b) :: c :: cs
    else if a = c.1 then
      if b = Memory.unlisted then cs else (a, b) :: cs
    else c :: Memory.insert a b cs

/-- The canonical form: addresses strictly rising, every listed cell inside the capacity and different from an unlisted
one. -/
abbrev Memory.wf (m : Memory) : Prop :=
  m.cells.Pairwise (fun c d => c.1 < d.1) ∧ ∀ c ∈ m.cells, c.1 < m.capacity ∧ c.2 ≠ Memory.unlisted

/-- `mem[a]` (10_state.md R28). -/
def Memory.cell (m : Memory) (a : Nat) : Byte := Memory.lookup a m.cells

/-- `mem[a] <- b`, no check made. -/
def Memory.setCell (m : Memory) (a : Nat) (b : Byte) : Memory := { m with cells := Memory.insert a b m.cells }

/-- `MemRead(addr, 1)` (20_memory.md R42): no clamping, no wrapping, no side effect. -/
def Memory.read (m : Memory) (addr : Int) : Except MachineError Byte :=
  if 0 ≤ addr ∧ addr < m.capacity then .ok (m.cell addr.toNat) else .error (.outOfBounds addr)

/-- `MemWrite(addr, 1, v)` (20_memory.md R43): the address is checked before the value, and a value outside `[0, 256)`
is an error, never truncated. -/
def Memory.write (m : Memory) (addr v : Int) : Except MachineError Memory :=
  if 0 ≤ addr ∧ addr < m.capacity then
    if 0 ≤ v ∧ v < 256 then .ok (m.setCell addr.toNat (BitVec.ofInt 8 v)) else .error (.valueRange v)
  else .error (.outOfBounds addr)

/-- The bytes at `a`, `a+1`, …, at most `n` of them and none past the top of memory. -/
def Memory.bytesFrom (m : Memory) (a : Nat) : Nat → List Byte
  | 0 => []
  | n + 1 => if a < m.capacity then m.cell a :: m.bytesFrom (a + 1) n else []

/-- The read-only view of every cell (20_memory.md R44). -/
def Memory.view (m : Memory) : List Byte := (List.range m.capacity).map m.cell

/-! ### Registers -/

/-- `x[i]` for an index that exists (10_state.md R20). -/
def State.reg (s : State) (i : Fin Config.nreg) : Word := s.regs[i]

/-- `x[i] <- v` for an index that exists: no register is hardwired and none aliases another (10_state.md R20). -/
def State.setReg (s : State) (i : Fin Config.nreg) (v : Word) : State := { s with regs := s.regs.set i v }

/-- `pc <- v` (00_scope.md R13). -/
def State.setPc (s : State) (v : Nat) : State := { s with pc := v }

/-- The state with another memory. -/
def State.setMem (s : State) (m : Memory) : State := { s with mem := m }

/-! ### Fault entry, and the way out of a fault -/

/-- Fault entry (60_exceptions.md R166): the latch takes the error, and nothing else is saved or changed. The run ends
because no step of a latched machine is enabled (40_execution_loop.md R87). -/
def State.takeError (s : State) (e : MachineError) : State := { s with fault := some e }

/-- `reset()` (70_reset_and_hazards.md R191): registers, `pc`, `halted` and the latch cleared, memory untouched. It is the
only way out of a latched fault and of the Halted state (60_exceptions.md R168, 44_control.md R154): there is no
return-from-trap instruction. -/
def State.resetCpu (s : State) : State :=
  { s with regs := Vector.replicate Config.nreg 0, pc := 0, halted := false, fault := none }

/-- How an instruction ends (40_execution_loop.md R85, R89): with its effect, or with its error taken and nothing else
written. Both are next states (log entry 2). -/
def settle (s : State) : Except MachineError State → Host.Outcome State Fault Refusal
  | .ok s' => .next s'
  | .error e => .next (s.takeError e)

end Sys2Proof.Machine
end

