-- ==== Sys2Proof/Machine/Operands.lean ====
section
/-! DEFINITION. The operand forms of 30_encoding.md R61 (register index, memory address, immediate) and the shapes of
instruction that share them. -/

namespace Sys2Proof.Machine

/-- A register index operand, checked: `RegisterIndexError(i)` when `i ≥ NREG` (10_state.md R22). -/
def regIndex (i : Byte) : Except MachineError (Fin Config.nreg) :=
  if h : i.toNat < Config.nreg then .ok ⟨i.toNat, h⟩ else .error (.registerIndex i)

/-- A memory address operand: the byte read unsigned (30_encoding.md R61). -/
def address (b : Byte) : Int := b.toNat

/-- `zext_XLEN`: an immediate, or a byte loaded from memory (30_encoding.md R61, 41_data_transfer.md R100). -/
def zeroExtend (b : Byte) : Word := b.setWidth 32

/-- The value a register offers to a memory write: its unsigned reading (20_memory.md R43). -/
def storeValue (v : Word) : Int := v.toNat

/-- The shape of ADD, SUB, MUL, DIV and MOD (42_arithmetic.md): `regA` then `regB` checked, both sources read before the
one write to `regA` (60_exceptions.md R163, 70_reset_and_hazards.md R202). -/
def binaryOp (f : Word → Word → Except MachineError Word) (a b : Byte) (s : State) : Except MachineError State := do
  let i ← regIndex a
  let j ← regIndex b
  let v ← f (s.reg i) (s.reg j)
  return s.setReg i v

/-- The shape of NOT (43_logic.md R140): one register, source and destination. -/
def unaryOp (f : Word → Word) (a : Byte) (s : State) : Except MachineError State := do
  let i ← regIndex a
  return s.setReg i (f (s.reg i))

end Sys2Proof.Machine
end

