-- ==== Sys2Proof/Machine/Arithmetic.lean ====
section
/-! DEFINITION. ADD, SUB, MUL, DIV and MOD (42_arithmetic.md). -/

namespace Sys2Proof.Machine

/-- ADD (R120). -/
def execAdd (a b : Byte) (s : State) : Host.Outcome State Fault Refusal :=
  settle s (binaryOp (fun x y => .ok (addWords x y)) a b s)

/-- SUB (R121). -/
def execSub (a b : Byte) (s : State) : Host.Outcome State Fault Refusal :=
  settle s (binaryOp (fun x y => .ok (subWords x y)) a b s)

/-- MUL (R122). -/
def execMul (a b : Byte) (s : State) : Host.Outcome State Fault Refusal :=
  settle s (binaryOp (fun x y => .ok (mulWords x y)) a b s)

/-- DIV (R123): the divisor is checked after both indices. -/
def execDiv (a b : Byte) (s : State) : Host.Outcome State Fault Refusal :=
  settle s (binaryOp (checkDivisor divWords) a b s)

/-- MOD (R124): the divisor is checked after both indices. -/
def execMod (a b : Byte) (s : State) : Host.Outcome State Fault Refusal :=
  settle s (binaryOp (checkDivisor modWords) a b s)

end Sys2Proof.Machine
end

