-- ==== Sys2Proof/Machine/Control.lean ====
section
/-! DEFINITION. NOP and HALT (44_control.md). -/

namespace Sys2Proof.Machine

/-- NOP (R150): no effect; `pc` has already advanced in the opcode fetch. -/
def execNop (s : State) : Host.Outcome State Fault Refusal := settle s (.ok s)

/-- HALT (R151): sets the halted flag and nothing else. -/
def execHalt (s : State) : Host.Outcome State Fault Refusal := settle s (.ok (s.setHalted true))

end Sys2Proof.Machine
end

