-- ==== Sys2Proof/Machine/DataTransfer.lean ====
section
/-! DEFINITION. LOAD, LOAD_IMM, MOV and STORE (41_data_transfer.md). Each runs after the operand fetch, with `pc` already past
the instruction. -/

namespace Sys2Proof.Machine

/-- LOAD (R100): index checked, byte read, register written with the byte zero-extended. -/
def execLoad (reg addr : Byte) (s : State) : Host.Outcome State Fault Refusal :=
  settle s do
    let i ← regIndex reg
    let b ← s.mem.read (address addr)
    return s.setReg i (zeroExtend b)

/-- LOAD_IMM (R101): index checked, register written with the immediate zero-extended. -/
def execLoadImm (reg value : Byte) (s : State) : Host.Outcome State Fault Refusal :=
  settle s do
    let i ← regIndex reg
    return s.setReg i (zeroExtend value)

/-- MOV (R102): destination index checked, then source index; all bits copied. -/
def execMov (destReg srcReg : Byte) (s : State) : Host.Outcome State Fault Refusal :=
  settle s do
    let d ← regIndex destReg
    let i ← regIndex srcReg
    return s.setReg d (s.reg i)

/-- STORE (R103): index checked, then the Memory write with its address check and its value check; the register value is
never truncated. -/
def execStore (reg addr : Byte) (s : State) : Host.Outcome State Fault Refusal :=
  settle s do
    let i ← regIndex reg
    let m ← s.mem.write (address addr) (storeValue (s.reg i))
    return s.setMem m

end Sys2Proof.Machine
end

