-- ==== Sys2Proof/Machine/Logic.lean ====
section
/-! DEFINITION. NOT (43_logic.md). -/

namespace Sys2Proof.Machine

/-- NOT (R140). -/
def execNot (a : Byte) (s : State) : Host.Outcome State Fault Refusal :=
  settle s (unaryOp notWord a s)

end Sys2Proof.Machine
end

