-- ==== Sys2Proof/Machine/Dispatch.lean ====
section
/-! DEFINITION. Dispatch "per the table" (40_execution_loop.md R82, R85): one arm per instruction, each one call of its meaning. -/

namespace Sys2Proof.Machine

def exec (i : Instr) (s : State) : Host.Outcome State Fault Refusal :=
  match i with
  | .load reg addr => Sys2Proof.Machine.execLoad reg addr s
  | .loadImm reg value => Sys2Proof.Machine.execLoadImm reg value s
  | .mov destReg srcReg => Sys2Proof.Machine.execMov destReg srcReg s
  | .store reg addr => Sys2Proof.Machine.execStore reg addr s
  | .add regA regB => Sys2Proof.Machine.execAdd regA regB s
  | .sub regA regB => Sys2Proof.Machine.execSub regA regB s
  | .mul regA regB => Sys2Proof.Machine.execMul regA regB s
  | .div regA regB => Sys2Proof.Machine.execDiv regA regB s
  | .mod regA regB => Sys2Proof.Machine.execMod regA regB s
  | .not regA => Sys2Proof.Machine.execNot regA s
  | .nop => Sys2Proof.Machine.execNop s
  | .halt => Sys2Proof.Machine.execHalt s

end Sys2Proof.Machine
end

