-- ==== Sys2Proof/Decode.lean ====
section
/-! DEFINITION. The opcode map, the decoder (total on any bytes, rejecting by name), the encoder, and the assembler
notation of 30_encoding.md. -/

namespace Sys2Proof

/-- The twelve rows of the opcode map (30_encoding.md R64), named by their mnemonics. -/
inductive Opcode where
  | load | loadImm | mov | store | add | sub | mul | div | mod | not | nop | halt
deriving DecidableEq, Repr

/-- The instruction formats of 30_encoding.md R60. -/
inductive Format where
  /-- Opcode only. -/
  | n
  /-- One register index. -/
  | r
  /-- Two register indices. -/
  | rr
  /-- A register index and a memory address. -/
  | ra
  /-- A register index and an immediate. -/
  | ri
deriving DecidableEq, Repr

/-- What an opcode byte still needs to become an instruction: its operand bytes, in operand order. -/
inductive Shape where
  | noOperand (i : Instr)
  | oneOperand (mk : Byte → Instr)
  | twoOperands (mk : Byte → Byte → Instr)

/-- Why bytes are no instruction. -/
inductive DecodeError where
  /-- There is no opcode byte to read. -/
  | noOpcode
  /-- The opcode byte selects no row (30_encoding.md R65). -/
  | unknownOpcode (op : Byte)
  /-- The bytes end before the operands of a legal opcode (40_execution_loop.md R81). -/
  | missingOperand (op : Byte)
deriving DecidableEq, Repr

/-- The opcode values (30_encoding.md R64), the one table of them (93_implementation_defined.md U7, log entry 9). -/
def Opcode.byte : Opcode → Byte
  | .load => 0x01
  | .loadImm => 0x02
  | .mov => 0x03
  | .store => 0x04
  | .add => 0x10
  | .sub => 0x11
  | .mul => 0x12
  | .div => 0x13
  | .mod => 0x14
  | .not => 0x20
  | .nop => 0xFE
  | .halt => 0xFF

/-- Every row, in the table's order (30_encoding.md R64). -/
def Opcode.all : List Opcode :=
  [.load, .loadImm, .mov, .store, .add, .sub, .mul, .div, .mod, .not, .nop, .halt]

/-- The format column of the opcode map (30_encoding.md R64). -/
def Opcode.format : Opcode → Format
  | .load | .store => .ra
  | .loadImm => .ri
  | .mov | .add | .sub | .mul | .div | .mod => .rr
  | .not => .r
  | .nop | .halt => .n

/-- Bytes of an instruction of a format (30_encoding.md R60). -/
def Format.length : Format → Nat
  | .n => 1
  | .r => 2
  | .rr | .ra | .ri => 3

/-- The operands a row takes, first operand first (30_encoding.md R62). -/
def Opcode.shape : Opcode → Shape
  | .load => .twoOperands .load
  | .loadImm => .twoOperands .loadImm
  | .mov => .twoOperands .mov
  | .store => .twoOperands .store
  | .add => .twoOperands .add
  | .sub => .twoOperands .sub
  | .mul => .twoOperands .mul
  | .div => .twoOperands .div
  | .mod => .twoOperands .mod
  | .not => .oneOperand .not
  | .nop => .noOperand .nop
  | .halt => .noOperand .halt

/-- The row an opcode byte selects, by all eight of its bits; `none` for the illegal values (30_encoding.md R64, R65). -/
def Opcode.ofByte (b : Byte) : Option Opcode := Opcode.all.find? (fun o => o.byte == b)

/-- The instruction that begins a byte sequence, with the bytes after it (30_encoding.md R60, R63, R67). -/
def decode : List Byte → Except DecodeError (Instr × List Byte)
  | [] => .error .noOpcode
  | op :: rest =>
    match Opcode.ofByte op with
    | none => .error (.unknownOpcode op)
    | some o =>
      match o.shape, rest with
      | .noOperand i, rest => .ok (i, rest)
      | .oneOperand mk, a :: rest => .ok (mk a, rest)
      | .twoOperands mk, a :: b :: rest => .ok (mk a b, rest)
      | _, _ => .error (.missingOperand op)

/-- The row of an instruction. -/
def Instr.opcode : Instr → Opcode
  | .load _ _ => .load
  | .loadImm _ _ => .loadImm
  | .mov _ _ => .mov
  | .store _ _ => .store
  | .add _ _ => .add
  | .sub _ _ => .sub
  | .mul _ _ => .mul
  | .div _ _ => .div
  | .mod _ _ => .mod
  | .not _ => .not
  | .nop => .nop
  | .halt => .halt

/-- The operand bytes of an instruction, first operand first (30_encoding.md R60, R62). -/
def Instr.operands : Instr → List Byte
  | .load r a => [r, a]
  | .loadImm r v => [r, v]
  | .mov d s => [d, s]
  | .store r a => [r, a]
  | .add a b => [a, b]
  | .sub a b => [a, b]
  | .mul a b => [a, b]
  | .div a b => [a, b]
  | .mod a b => [a, b]
  | .not a => [a]
  | .nop => []
  | .halt => []

/-- Length in bytes, a function of the opcode alone (30_encoding.md R63). -/
def Instr.length (i : Instr) : Nat := i.opcode.format.length

/-- The bytes of an instruction, in address order (30_encoding.md R60). -/
def encode (i : Instr) : List Byte := i.opcode.byte :: i.operands

/-- The bytes of an instruction whose bits are `w`, the first byte in bits 7..0, with every bit above `nbits` zero, up to
the longest instruction (3 bytes, 30_encoding.md R60). -/
def wordBytes (nbits w : Nat) : List Byte :=
  [BitVec.ofNat 8 (w % 2 ^ nbits), BitVec.ofNat 8 (w % 2 ^ nbits / 256), BitVec.ofNat 8 (w % 2 ^ nbits / 65536)]

/-- The instruction the decoder reads from an opcode-table word (bit 0 the least significant bit of the first byte). -/
def decodeTableWord (nbits w : Nat) : Option Instr :=
  match decode (wordBytes nbits w) with
  | .ok (i, _) => some i
  | .error _ => none

/-- One line of the assembler notation (30_encoding.md R68): an instruction, or `.byte V`. -/
inductive AsmLine where
  | instr (i : Instr)
  | byte (v : Byte)
deriving DecidableEq, Repr

/-- The bytes a line stands for (30_encoding.md R68). -/
def AsmLine.bytes : AsmLine → List Byte
  | .instr i => encode i
  | .byte v => [v]

/-- The program image of a listing: the bytes of its lines in order (30_encoding.md R60, R68). -/
def assemble (lines : List AsmLine) : List Byte := lines.flatMap AsmLine.bytes

/-- `rN`, a register index in the notation of 30_encoding.md R68. -/
def registerText (i : Byte) : String := "r" ++ toString i.toNat

/-- The text of an instruction in the notation of 30_encoding.md R68. -/
def Instr.text : Instr → String
  | .load r a => "LOAD " ++ registerText r ++ ", [" ++ toString a.toNat ++ "]"
  | .loadImm r v => "LOAD_IMM " ++ registerText r ++ ", " ++ toString v.toNat
  | .mov d s => "MOV " ++ registerText d ++ ", " ++ registerText s
  | .store r a => "STORE " ++ registerText r ++ ", [" ++ toString a.toNat ++ "]"
  | .add a b => "ADD " ++ registerText a ++ ", " ++ registerText b
  | .sub a b => "SUB " ++ registerText a ++ ", " ++ registerText b
  | .mul a b => "MUL " ++ registerText a ++ ", " ++ registerText b
  | .div a b => "DIV " ++ registerText a ++ ", " ++ registerText b
  | .mod a b => "MOD " ++ registerText a ++ ", " ++ registerText b
  | .not a => "NOT " ++ registerText a
  | .nop => "NOP"
  | .halt => "HALT"

/-- The text of a line in the notation of 30_encoding.md R68. -/
def AsmLine.text : AsmLine → String
  | .instr i => i.text
  | .byte v => ".byte " ++ toString v.toNat

end Sys2Proof
end

