-- ==== Sys2Proof/Machine/Fetch.lean ====
section
/-! DEFINITION. Fetch, decode and operand fetch (40_execution_loop.md R80 to R85), and the tests the run loop makes before a
step (R87). -/

namespace Sys2Proof.Machine

/-- What a fetch gives: a value and the state after it, or the error raised and the state it leaves, whose `pc` stands after
the last byte fetched (40_execution_loop.md R89). -/
inductive Fetched (α : Type) where
  | ok (value : α) (s : State)
  | error (e : MachineError) (s : State)

/-- One fetch after another. -/
def Fetched.bind {α β : Type} (r : Fetched α) (f : α → State → Fetched β) : Fetched β :=
  match r with
  | .ok a s => f a s
  | .error e s => .error e s

/-- `Fetch()` (R80): the Memory read at `pc`, then the increment; a failed read does not increment (92_eei_decisions.md D7). -/
def fetch (s : State) : Fetched Byte :=
  match s.mem.read s.pc with
  | .ok b => .ok b (s.setPc (s.pc + 1))
  | .error e => .error e s

/-- Operand fetch (R83): the operand bytes a row takes, in operand order, before anything else is read or written. -/
def fetchOperands (sh : Shape) (s : State) : Fetched Instr :=
  match sh with
  | .noOperand i => .ok i s
  | .oneOperand mk => (fetch s).bind fun a s₁ => .ok (mk a) s₁
  | .twoOperands mk => (fetch s).bind fun a s₁ => (fetch s₁).bind fun b s₂ => .ok (mk a b) s₂

/-- Opcode fetch, decode and operand fetch (R82 to R85): an illegal opcode raises its error before any operand is fetched
(R84). -/
def fetchInstr (s : State) : Fetched Instr :=
  (fetch s).bind fun op s₁ =>
    match Opcode.ofByte op with
    | none => .error (.unknownOpcode op) s₁
    | some o => fetchOperands o.shape s₁

/-- Why `run` takes no step from this state, its tests in their order: the latch, the halted flag, the top of memory (R87);
`none` where a step is enabled. -/
def stopReason (s : State) : Option Fault :=
  match s.fault with
  | some e => some (.latched e)
  | none => if s.halted then some .halted else if s.mem.capacity ≤ s.pc then some .endOfMemory else none

/-- Bytes placed in the cells from an address on, none past the top of memory: what `State.withFetchWord` stores. -/
def Memory.placeBytes (m : Memory) (a : Nat) : List Byte → Memory
  | [] => m
  | b :: bs => Memory.placeBytes (if a < m.capacity then m.setCell a b else m) (a + 1) bs

end Sys2Proof.Machine
end

