-- ==== Sys2Proof/Machine/Step.lean ====
section
/-! DEFINITION. The step (40_execution_loop.md R85, R91), and how a table word is put where the next step fetches it. -/

namespace Sys2Proof.Machine

/-- One step (R85, R91): the run loop's stop tests, then fetch, decode, operand fetch and execution. A step that raises an
error answers the next state with the error latched (60_exceptions.md R166, log entry 2); a stop is answered only where
no step is enabled. -/
def step (s : State) : Host.Outcome State Fault Refusal :=
  match stopReason s with
  | some r => .fault r
  | none =>
    match fetchInstr s with
    | .ok i s' => exec i s'
    | .error e s' => .next (s'.takeError e)

/-- `s` with the table word's bytes (three, the longest instruction) in the cells at `pc`, Running and with no fault
latched, so that the very next step fetches and runs that instruction. It stands for the host's `loadProgram` (log entry
5). -/
def State.withFetchWord (s : State) (nbits w : Nat) : State :=
  { s with halted := false, fault := none, mem := s.mem.placeBytes s.pc (wordBytes nbits w) }

end Sys2Proof.Machine
end

