-- ==== Sys2Proof/Machine/Run.lean ====
section
/-! DEFINITION. The run loop (40_execution_loop.md R87, 70_reset_and_hazards.md R195). -/

namespace Sys2Proof.Machine

/-- The outcomes of `run` (40_execution_loop.md R87). -/
inductive RunOutcome where
  | halted
  | endOfMemory
  | fault (e : MachineError)
deriving DecidableEq, Repr

/-- The outcome `run` reports where no step is enabled (R87). -/
def RunOutcome.ofStop : Fault → RunOutcome
  | .halted => .halted
  | .endOfMemory => .endOfMemory
  | .latched e => .fault e

/-- The loop of R87 with a bound on its iterations: `none` only when the bound is used up. -/
def runLoop : Nat → State → Option (RunOutcome × State)
  | 0, _ => none
  | n + 1, s =>
    match step s with
    | .next s' => runLoop n s'
    | .fault r => some (RunOutcome.ofStop r, s)
    | .refused _ => none

/-- `run()`: the loop with one iteration more than the `MEMSIZE - pc` steps R88 allows, which is always enough (log entry 7). -/
def run (s : State) : Option (RunOutcome × State) := runLoop (s.mem.capacity - s.pc + 1) s

end Sys2Proof.Machine
end

