-- ==== Sys2Proof/Machine/HostOps.lean ====
section
/-! DEFINITION. The host interface (70_reset_and_hazards.md R190): each operation an atomic transaction between runs. The host has
no move while a run is in progress (R196, log entry 6). -/

namespace Sys2Proof.Machine

/-- The status read: `halted`, `pc`, and the latch as (code, info), code 0 when nothing is latched (R198). -/
structure Status where
  halted : Bool
  pc : Nat
  code : Nat
  info : Option Int
deriving DecidableEq, Repr

/-- The operations of R190 on a machine that exists; construction is `construct`. -/
inductive HostOp where
  /-- Host memory read, any integer address (R193). -/
  | read (addr : Int)
  /-- Host memory write, any integers (R193). -/
  | write (addr value : Int)
  /-- The memory's size (R199). -/
  | size
  /-- The read-only view of the cells (R199). -/
  | view
  /-- A bulk load: writes at increasing addresses, each checked (20_memory.md R44). -/
  | bulkLoad (addr : Int) (values : List Int)
  /-- `loadProgram(bytes)` (R194); its type admits integers that are no bytes (92_eei_decisions.md D15). -/
  | loadProgram (bytes : List Int)
  /-- `run()` (R195). -/
  | run
  /-- `reset()` (R191). -/
  | reset
  /-- `getRegisters()` (R197). -/
  | getRegisters
  /-- `isHalted()` (R198). -/
  | isHalted
  /-- The status read (R198). -/
  | status
deriving DecidableEq, Repr

/-- What an operation answers. -/
inductive HostReply where
  | done
  | byte (b : Byte)
  | size (n : Nat)
  | view (cells : List Byte)
  | registers (values : Vector Word Config.nreg)
  | flag (b : Bool)
  | status (t : Status)
  | ended (o : RunOutcome)
  /-- `run` has not ended: never answered, since every run ends (40_execution_loop.md R88). -/
  | notEnded
  /-- The operation failed; the latch is not set by it (60_exceptions.md R161). -/
  | failed (e : MachineError)
deriving DecidableEq, Repr

/-- `construct(size)` with the Cpu bound to the new Memory (20_memory.md R41, 70_reset_and_hazards.md R192): no machine exists
unless the size is a positive integer. -/
def construct (size : Int) : Except MachineError State :=
  if 1 ≤ size then .ok (State.ofCapacity size.toNat) else .error (.invalidSize size)

/-- A sequence of checked writes at increasing addresses (20_memory.md R44): the memory it leaves, and the error of the first
write that fails, after which none is made (92_eei_decisions.md D15). -/
def Memory.writeAll (m : Memory) (addr : Int) : List Int → Memory × Option MachineError
  | [] => (m, none)
  | v :: vs =>
    match m.write addr v with
    | .ok m' => m'.writeAll (addr + 1) vs
    | .error e => (m, some e)

/-- `loadProgram(bytes)` (R194): too long a program changes nothing; otherwise checked writes from address 0 and then
`pc <- 0`; registers, `halted` and `fault` stay. -/
def loadProgram (bytes : List Int) (s : State) : HostReply × State :=
  if s.mem.capacity < bytes.length then (.failed (.programTooLarge bytes.length), s)
  else
    match s.mem.writeAll 0 bytes with
    | (m, none) => (.done, (s.setMem m).setPc 0)
    | (m, some e) => (.failed e, s.setMem m)

/-- Host memory write (R193): an error fails the operation alone. -/
def hostWrite (addr value : Int) (s : State) : HostReply × State :=
  match s.mem.write addr value with
  | .ok m => (.done, s.setMem m)
  | .error e => (.failed e, s)

/-- Bulk load (20_memory.md R44). -/
def hostBulkLoad (addr : Int) (values : List Int) (s : State) : HostReply × State :=
  match s.mem.writeAll addr values with
  | (m, none) => (.done, s.setMem m)
  | (m, some e) => (.failed e, s.setMem m)

/-- Host memory read (R193). -/
def hostRead (addr : Int) (s : State) : HostReply :=
  match s.mem.read addr with
  | .ok b => .byte b
  | .error e => .failed e

/-- The fault part of the status read (R198). -/
def faultCode : Option MachineError → Nat
  | none => 0
  | some e => e.code

/-- The status read (R198). -/
def State.status (s : State) : Status :=
  { halted := s.halted, pc := s.pc, code := faultCode s.fault, info := s.fault.bind MachineError.info }

/-- `getRegisters()` returns the registers' bit patterns, a copy (R197, 10_state.md R32). -/
def State.getRegisters (s : State) : Vector Word Config.nreg := s.regs

/-- The integer view of a register value: its signed reading (10_state.md R32). -/
def integerView (v : Word) : Int := v.toInt

/-- `run()` as a transaction: its outcome and the state it leaves (R195). -/
def hostRun (s : State) : HostReply × State :=
  match run s with
  | some (o, s') => (.ended o, s')
  | none => (.notEnded, s)

/-- One transaction of the host (R190): its answer and the state after it. -/
def hostOp : HostOp → State → HostReply × State
  | .read addr, s => (hostRead addr s, s)
  | .write addr value, s => hostWrite addr value s
  | .size, s => (.size s.mem.capacity, s)
  | .view, s => (.view s.mem.view, s)
  | .bulkLoad addr values, s => hostBulkLoad addr values s
  | .loadProgram bytes, s => loadProgram bytes s
  | .run, s => hostRun s
  | .reset, s => (.done, s.resetCpu)
  | .getRegisters, s => (.registers s.getRegisters, s)
  | .isHalted, s => (.flag s.halted, s)
  | .status, s => (.status s.status, s)

end Sys2Proof.Machine
end

