-- ==== Sys2Proof/WellFormed.lean ====
section
/-! DEFINITION. What can be checked before a run: that an instruction names only registers and cells that exist, that a
program fits its memory, and that a configuration is one the spec admits. The decoder makes none of these checks
(30_encoding.md R66): an instruction that fails its check still decodes and raises its error when it executes. -/

namespace Sys2Proof

/-- A register index operand names a register: below `NREG` (10_state.md R22). -/
def registerExists (i : Byte) : Bool := decide (i.toNat < Config.nreg)

/-- An address operand names a cell of a memory of that capacity (20_memory.md R42). -/
def addressExists (capacity : Nat) (a : Byte) : Bool := decide (a.toNat < capacity)

/-- The register index operands of an instruction, in operand order (30_encoding.md R60, R64). -/
def Instr.registerOperands : Instr → List Byte
  | .load r _ | .loadImm r _ | .store r _ | .not r => [r]
  | .mov a b | .add a b | .sub a b | .mul a b | .div a b | .mod a b => [a, b]
  | .nop | .halt => []

/-- The memory address operand of LOAD and STORE (30_encoding.md R64). -/
def Instr.addressOperand : Instr → Option Byte
  | .load _ a | .store _ a => some a
  | .loadImm _ _ | .mov _ _ | .add _ _ | .sub _ _ | .mul _ _ | .div _ _ | .mod _ _ | .not _ | .nop | .halt => none

/-- Every register and every cell the instruction names exists (30_encoding.md R61, R66): what remains able to fail is
STORE's value and the divisor of DIV and MOD, which depend on the registers (60_exceptions.md R163). -/
def Instr.wellFormed (capacity : Nat) (i : Instr) : Bool :=
  i.registerOperands.all registerExists && i.addressOperand.all (addressExists capacity)

/-- A value fits a cell: it lies in `[0, 256)` (20_memory.md R43). -/
def cellValueOk (v : Int) : Bool := decide (0 ≤ v ∧ v < 256)

/-- A program `loadProgram` accepts whole: no longer than the memory, every element a byte value
(70_reset_and_hazards.md R194). -/
def programWellFormed (capacity : Nat) (bytes : List Int) : Bool :=
  decide (bytes.length ≤ capacity) && bytes.all cellValueOk

/-- A configuration the spec admits: `MEMSIZE` a positive integer (20_memory.md R41), `1 ≤ NREG ≤ 256`
(00_scope.md R7), `XLEN ≥ 9` (R8). -/
def configWellFormed (memSize : Int) (nreg xlen : Nat) : Bool :=
  decide (1 ≤ memSize) && decide (1 ≤ nreg ∧ nreg ≤ 256) && decide (9 ≤ xlen)

end Sys2Proof
end

