-- ==== Sys2Proof/Safety.lean ====
section
/-! DEFINITION. The terms claims use: the invariant of the machine, the states the host can reach, and what a run that ends
well is. -/

namespace Sys2Proof.Machine

/-- The errors a run can latch: codes 2, 3, 5, 6 and 7 (60_exceptions.md R161). -/
def MachineError.raisedByRun : MachineError → Prop
  | .outOfBounds _ | .valueRange _ | .divisionByZero | .unknownOpcode _ | .registerIndex _ => True
  | .invalidSize _ | .programTooLarge _ => False

/-- The invariant of every state of a constructed machine: a positive capacity (20_memory.md R41), `pc ≤ MEMSIZE`
(10_state.md R23, there the spec's own inference from R42 and R80), the memory in canonical form (the model's representation,
log entry 4), a latch that holds only errors of a run (10_state.md R27, 60_exceptions.md R161), and a latched machine not
halted (the model's inference: only HALT sets the flag, 44_control.md R151; a step that raises an error does not, R165, itself
the spec's inference; and no step follows HALT, 40_execution_loop.md R87). -/
structure State.Inv (s : State) : Prop where
  capacity_pos : 1 ≤ s.mem.capacity
  pc_le : s.pc ≤ s.mem.capacity
  mem_wf : s.mem.wf
  fault_run : ∀ e, s.fault = some e → e.raisedByRun
  fault_not_halted : s.fault.isSome → s.halted = false

/-- The states the host can bring a machine into: by construction, and by any sequence of its transactions
(70_reset_and_hazards.md R190, R192). -/
inductive Reachable : State → Prop where
  | construct (size : Int) (s : State) (h : construct size = .ok s) : Reachable s
  | hostOp (op : HostOp) (s : State) (h : Reachable s) : Reachable (hostOp op s).2

/-- The machine is enabled to step: no fault latched, not halted, an opcode to fetch (40_execution_loop.md R85). -/
abbrev State.Enabled (s : State) : Prop := s.fault = none ∧ s.halted = false ∧ s.pc < s.mem.capacity

/-- A run that ends well: HALTED or END_OF_MEMORY (70_reset_and_hazards.md R201). -/
def RunOutcome.EndsWell : RunOutcome → Prop
  | .halted | .endOfMemory => True
  | .fault _ => False

/-- `s` reaches `s'` in that many steps (40_execution_loop.md R85). -/
inductive StepsTo : Nat → State → State → Prop where
  | zero (s : State) : StepsTo 0 s s
  | succ (n : Nat) (s s' s'' : State) (h : step s = .next s') (h' : StepsTo n s' s'') : StepsTo (n + 1) s s''

/-- The illegal opcode bytes, by the ranges of 30_encoding.md R65. -/
abbrev IllegalOpcode (op : Byte) : Prop :=
  op.toNat = 0x00 ∨ (0x05 ≤ op.toNat ∧ op.toNat ≤ 0x0F) ∨ (0x15 ≤ op.toNat ∧ op.toNat ≤ 0x1F) ∨
    (0x21 ≤ op.toNat ∧ op.toNat ≤ 0xFD)

/-- What an operand fetch past the top of memory does for an opcode of that length: `OutOfBoundsError(MEMSIZE)`, `pc` at
`MEMSIZE`, nothing else changed (40_execution_loop.md R81). -/
def OperandFetchFaults (op : Byte) (length : Nat) : Prop :=
  ∀ s : State, s.Enabled → s.mem.cell s.pc = op → s.mem.capacity < s.pc + length →
    step s = .next { s with pc := s.mem.capacity, fault := some (.outOfBounds s.mem.capacity) }

/-- The index errors of an instruction with two register operands: the first operand's, then the second's, in the state as
it was (60_exceptions.md R163). -/
def IndexErrorsInOrder (i : Byte → Byte → Instr) : Prop :=
  ∀ (a b : Byte) (s : State),
    (Config.nreg ≤ a.toNat → exec (i a b) s = .next { s with fault := some (.registerIndex a) }) ∧
    (a.toNat < Config.nreg → Config.nreg ≤ b.toNat → exec (i a b) s = .next { s with fault := some (.registerIndex b) })

/-- The index error of an instruction with one register operand (10_state.md R22). -/
def IndexError (r : Byte) (i : Instr) : Prop :=
  ∀ s : State, Config.nreg ≤ r.toNat → exec i s = .next { s with fault := some (.registerIndex r) }

end Sys2Proof.Machine
end

