-- ==== Sys2Proof/Certificates/Slice0/Obligations.lean ====
section
/-! DEFINITION. The statements for the provers, one `def Obligations.<Name> : Prop` each (OBLIGATIONS.json lists them). -/

open Sys2Proof Sys2Proof.Machine

/-! ### Encoding and decoding -/

/-- 30_encoding.md R60, R62, R63, R67: the decoder answers an instruction and the bytes after it exactly for the bytes that
begin with that instruction's encoding. No bit of an encoding is dropped and no two instructions share one. R67, that the
decoder is total, is the spec's own inference from R64 and R65. -/
def Obligations.DecodeExactlyInvertsEncode : Prop :=
  ∀ (bs rest : List Byte) (i : Instr), decode bs = .ok (i, rest) ↔ bs = encode i ++ rest

/-- 30_encoding.md R63: the length is fixed by the opcode byte alone, and the decoder consumes exactly that many bytes. -/
def Obligations.LengthFollowsFromOpcodeByte : Prop :=
  ∀ (op : Byte) (bs rest : List Byte) (i : Instr), decode (op :: bs) = .ok (i, rest) →
    (op :: bs).length = rest.length + (if op = 0xFE ∨ op = 0xFF then 1 else if op = 0x20 then 2 else 3)

/-- 30_encoding.md R65, 40_execution_loop.md R84: exactly the bytes of R65's ranges are illegal, 244 of them; fetching one as an
opcode raises `UnknownOpcodeError` with the opcode byte, `pc` one past it, no operand fetched and nothing else changed. -/
def Obligations.IllegalOpcodeRaisesAndFetchesNoOperand : Prop :=
  (∀ (op : Byte) (rest : List Byte), decode (op :: rest) = .error (.unknownOpcode op) ↔ IllegalOpcode op) ∧
  ((List.range 256).filter fun n => (Opcode.ofByte (BitVec.ofNat 8 n)).isNone).length = 244 ∧
  ∀ s : State, s.Enabled → IllegalOpcode (s.mem.cell s.pc) →
    step s = .next { s with pc := s.pc + 1, fault := some (.unknownOpcode (s.mem.cell s.pc)) }

/-- Words written out from 30_encoding.md R64, one for each family, decode to the instruction they stand for. -/
def Obligations.SpecWordsDecode : Prop :=
  decode [0x01, 0x03, 0x20] = .ok (.load 3 0x20, []) ∧
  decode [0x04, 0x00, 0x10] = .ok (.store 0 0x10, []) ∧
  decode [0x10, 0x00, 0x01] = .ok (.add 0 1, []) ∧
  decode [0x20, 0x04] = .ok (.not 4, []) ∧
  decode [0xFE] = .ok (.nop, []) ∧
  decode [0xFF] = .ok (.halt, [])

/-! ### Fetch and the step -/

/-- 40_execution_loop.md R80: a fetch reads the cell at `pc` and then increments; a failed read does not increment. -/
def Obligations.FetchReadsThenIncrements : Prop :=
  ∀ s : State,
    (s.pc < s.mem.capacity → fetch s = .ok (s.mem.cell s.pc) { s with pc := s.pc + 1 }) ∧
    (s.mem.capacity ≤ s.pc → fetch s = .error (.outOfBounds s.pc) s)

/-- 40_execution_loop.md R82, R83, R85: where a step is enabled and the bytes at `pc` decode to an instruction, the step is the
execution of that instruction in the state whose `pc` is past its bytes. -/
def Obligations.StepRunsDecodedInstruction : Prop :=
  ∀ (s : State) (i : Instr) (rest : List Byte), s.Enabled → decode (s.mem.bytesFrom s.pc 3) = .ok (i, rest) →
    step s = exec i { s with pc := s.pc + i.length }

/-- 40_execution_loop.md R81: where a step is enabled the opcode fetch never fails; an instruction whose bytes do not all lie
below `MEMSIZE` raises `OutOfBoundsError(MEMSIZE)` in an operand fetch, leaves `pc = MEMSIZE` and writes nothing. -/
def Obligations.OperandFetchPastEndOfMemory : Prop :=
  ∀ s : State, s.Enabled →
    fetch s = .ok (s.mem.cell s.pc) { s with pc := s.pc + 1 } ∧
    ∀ o : Opcode, Opcode.ofByte (s.mem.cell s.pc) = some o → s.mem.capacity < s.pc + o.format.length →
      step s = .next { s with pc := s.mem.capacity, fault := some (.outOfBounds s.mem.capacity) }

/-- 40_execution_loop.md R87, R91: a step is turned away in exactly three cases, tested in this order: a latched fault, the
halted flag, the top of memory; it is never refused. That these stops are answers of kind `fault` is the model's form
(log entry 2). -/
def Obligations.StepStopsExactlyWhenRunWould : Prop :=
  ∀ s : State,
    (∀ e, step s = .fault (.latched e) ↔ s.fault = some e) ∧
    (step s = .fault .halted ↔ s.fault = none ∧ s.halted = true) ∧
    (step s = .fault .endOfMemory ↔ s.fault = none ∧ s.halted = false ∧ s.mem.capacity ≤ s.pc) ∧
    ((∃ t, step s = .next t) ↔ s.Enabled)

/-- 10_state.md R23, 40_execution_loop.md R88: every step moves `pc` forward by one to three bytes and never past `MEMSIZE`
(the spec's own inference from R42 and R80). -/
def Obligations.EveryStepAdvancesPc : Prop :=
  ∀ s t : State, step s = .next t → s.pc < t.pc ∧ t.pc ≤ s.pc + 3 ∧ t.pc ≤ s.mem.capacity

/-! ### The Memory -/

/-- 20_memory.md R42: a read gives the cell of an address in `[0, MEMSIZE)` and fails with `OutOfBoundsError` on every other, with no
clamping and no wrapping. -/
def Obligations.MemoryReadChecksBounds : Prop :=
  ∀ (m : Memory) (addr : Int),
    (0 ≤ addr → addr < m.capacity → m.read addr = .ok (m.cell addr.toNat)) ∧
    (addr < 0 ∨ m.capacity ≤ addr → m.read addr = .error (.outOfBounds addr))

/-- 20_memory.md R43: the write, on a memory in canonical form: one cell replaced, or an error with nothing written; the address
is checked before the value, and a value is never truncated. The canonical form, as premise and as what the write keeps
(`m'.wf`), is the model's representation of memory and no part of R43 (log entry 4, DESIGN CHOICE). -/
def Obligations.MemoryWriteChecksAddressThenValue : Prop :=
  ∀ (m : Memory) (addr v : Int), m.wf →
    (0 ≤ addr → addr < m.capacity → 0 ≤ v → v < 256 →
      ∃ m' : Memory, m.write addr v = .ok m' ∧ m'.wf ∧ m'.capacity = m.capacity ∧
        ((m'.cell addr.toNat).toNat : Int) = v ∧ ∀ a : Nat, (a : Int) ≠ addr → m'.cell a = m.cell a) ∧
    (addr < 0 ∨ m.capacity ≤ addr → m.write addr v = .error (.outOfBounds addr)) ∧
    (0 ≤ addr → addr < m.capacity → v < 0 ∨ 256 ≤ v → m.write addr v = .error (.valueRange v))

/-- 20_memory.md R45: the laws of the Memory, as reads and writes by address. -/
def Obligations.ReadAfterWriteReturnsTheValue : Prop :=
  (∀ (m : Memory) (a v : Int), m.wf → 0 ≤ a → a < m.capacity → 0 ≤ v → v < 256 →
    ∃ m', m.write a v = .ok m' ∧ m'.read a = .ok (BitVec.ofInt 8 v) ∧ ∀ a' : Int, a' ≠ a → m'.read a' = m.read a') ∧
  (∀ (m : Memory) (a v : Int), a < 0 ∨ m.capacity ≤ a →
    m.read a = .error (.outOfBounds a) ∧ m.write a v = .error (.outOfBounds a)) ∧
  ∀ (size a : Int) (s : State), construct size = .ok s → 0 ≤ a → a < size → s.mem.read a = .ok 0

/-- The model's representation (log entry 4): two memories in canonical form that agree on capacity and on every cell are the same
data. -/
def Obligations.CanonicalMemoriesWithEqualCellsAreEqual : Prop :=
  ∀ m m' : Memory, m.wf → m'.wf → m.capacity = m'.capacity → (∀ a : Nat, m.cell a = m'.cell a) → m = m'

/-! ### Data transfer -/

/-- 41_data_transfer.md R100: LOAD: its encoding; the register takes the byte zero-extended and nothing else changes; the index error,
then the address error, with nothing but the latch written; the operand fetch past the end of memory. -/
def Obligations.LoadReadsByteZeroExtended : Prop :=
  (∀ r a : Byte, encode (.load r a) = [0x01, r, a]) ∧
  (∀ (r a : Byte) (s : State) (hr : r.toNat < Config.nreg), a.toNat < s.mem.capacity →
    exec (.load r a) s = .next { s with regs := s.regs.set r.toNat ((s.mem.cell a.toNat).setWidth 32) hr }) ∧
  (∀ r a : Byte, IndexError r (.load r a)) ∧
  (∀ (r a : Byte) (s : State), r.toNat < Config.nreg → s.mem.capacity ≤ a.toNat →
    exec (.load r a) s = .next { s with fault := some (.outOfBounds a.toNat) }) ∧
  OperandFetchFaults 0x01 3

/-- 41_data_transfer.md R101: LOAD_IMM: its encoding; the register takes the immediate zero-extended and nothing else changes; the index
error; the operand fetch past the end of memory. -/
def Obligations.LoadImmWritesZeroExtendedImmediate : Prop :=
  (∀ r v : Byte, encode (.loadImm r v) = [0x02, r, v]) ∧
  (∀ (r v : Byte) (s : State) (hr : r.toNat < Config.nreg),
    exec (.loadImm r v) s = .next { s with regs := s.regs.set r.toNat (v.setWidth 32) hr }) ∧
  (∀ r v : Byte, IndexError r (.loadImm r v)) ∧
  OperandFetchFaults 0x02 3

/-- 41_data_transfer.md R102: MOV: its encoding; all bits copied and nothing else changed; equal indices leave the state as it is; the
index errors, destination first; the operand fetch past the end of memory. -/
def Obligations.MovCopiesAllBits : Prop :=
  (∀ d r : Byte, encode (.mov d r) = [0x03, d, r]) ∧
  (∀ (d r : Byte) (s : State) (hd : d.toNat < Config.nreg) (hr : r.toNat < Config.nreg),
    exec (.mov d r) s = .next { s with regs := s.regs.set d.toNat s.regs[r.toNat] hd }) ∧
  (∀ (d : Byte) (s : State), d.toNat < Config.nreg → exec (.mov d d) s = .next s) ∧
  IndexErrorsInOrder .mov ∧
  OperandFetchFaults 0x03 3

/-- 41_data_transfer.md R103: STORE: its encoding; for a value below 256 the one cell named takes it and nothing else changes; the index,
address and value errors in that order, with nothing but the latch written; the operand fetch past the end. The cell's new value is stated for a memory in canonical form. -/
def Obligations.StoreWritesByteOrFaults : Prop :=
  (∀ r a : Byte, encode (.store r a) = [0x04, r, a]) ∧
  (∀ (r a : Byte) (s : State) (hr : r.toNat < Config.nreg), a.toNat < s.mem.capacity → (s.regs[r.toNat]).toNat < 256 →
    ∃ m : Memory, exec (.store r a) s = .next { s with mem := m } ∧ m.capacity = s.mem.capacity ∧
      (s.mem.wf → (m.cell a.toNat).toNat = (s.regs[r.toNat]).toNat) ∧ ∀ x : Nat, x ≠ a.toNat → m.cell x = s.mem.cell x) ∧
  (∀ r a : Byte, IndexError r (.store r a)) ∧
  (∀ (r a : Byte) (s : State), r.toNat < Config.nreg → s.mem.capacity ≤ a.toNat →
    exec (.store r a) s = .next { s with fault := some (.outOfBounds a.toNat) }) ∧
  (∀ (r a : Byte) (s : State) (hr : r.toNat < Config.nreg), a.toNat < s.mem.capacity → 256 ≤ (s.regs[r.toNat]).toNat →
    exec (.store r a) s = .next { s with fault := some (.valueRange (s.regs[r.toNat]).toNat) }) ∧
  OperandFetchFaults 0x04 3

/-- 41_data_transfer.md R100, R103, 20_memory.md R51: a byte value stored and then loaded from the same address arrives in the
destination register. -/
def Obligations.StoreThenLoadCopiesRegister : Prop :=
  ∀ (r d a : Byte) (s : State) (hr : r.toNat < Config.nreg) (hd : d.toNat < Config.nreg),
    s.mem.wf → a.toNat < s.mem.capacity → (s.regs[r.toNat]).toNat < 256 →
    ∃ t u, exec (.store r a) s = .next t ∧ exec (.load d a) t = .next u ∧
      u.regs = s.regs.set d.toNat s.regs[r.toNat] hd ∧ u.pc = s.pc ∧ u.halted = s.halted ∧ u.fault = s.fault

/-- 20_memory.md R54, which the spec infers from R42, R80 and R51: a STORE over the next instruction's opcode is seen by the fetch
that immediately follows it. -/
def Obligations.StoreIsSeenByNextFetch : Prop :=
  ∀ (r a : Byte) (s : State) (hr : r.toNat < Config.nreg),
    s.mem.wf → a.toNat < s.mem.capacity → (s.regs[r.toNat]).toNat < 256 → s.pc = a.toNat →
    ∃ t, exec (.store r a) s = .next t ∧ fetch t = .ok ((s.regs[r.toNat]).setWidth 8) { t with pc := t.pc + 1 }

/-! ### Arithmetic -/

/-- 42_arithmetic.md R120: ADD: its encoding; `x[regA]` takes the sum of the unsigned readings modulo 2^32 and nothing else
changes; the index errors, first operand first; the operand fetch past the end of memory. -/
def Obligations.AddWrapsModuloWordSize : Prop :=
  (∀ a b : Byte, encode (.add a b) = [0x10, a, b]) ∧
  (∀ (a b : Byte) (s : State) (ha : a.toNat < Config.nreg) (hb : b.toNat < Config.nreg),
    exec (.add a b) s = .next { s with
      regs := s.regs.set a.toNat (BitVec.ofNat 32 ((s.regs[a.toNat]).toNat + (s.regs[b.toNat]).toNat)) ha }) ∧
  IndexErrorsInOrder .add ∧
  OperandFetchFaults 0x10 3

/-- 42_arithmetic.md R121: SUB: its encoding; `x[regA]` takes the difference of the unsigned readings modulo 2^32 and nothing else
changes; the index errors, first operand first; the operand fetch past the end of memory. -/
def Obligations.SubWrapsModuloWordSize : Prop :=
  (∀ a b : Byte, encode (.sub a b) = [0x11, a, b]) ∧
  (∀ (a b : Byte) (s : State) (ha : a.toNat < Config.nreg) (hb : b.toNat < Config.nreg),
    exec (.sub a b) s = .next { s with
      regs := s.regs.set a.toNat (BitVec.ofInt 32 (((s.regs[a.toNat]).toNat : Int) - (s.regs[b.toNat]).toNat)) ha }) ∧
  IndexErrorsInOrder .sub ∧
  OperandFetchFaults 0x11 3

/-- 42_arithmetic.md R122: MUL: its encoding; `x[regA]` takes the low 32 bits of the product of the unsigned readings and nothing else
changes; the index errors, first operand first; the operand fetch past the end of memory. -/
def Obligations.MulKeepsLowHalfOfProduct : Prop :=
  (∀ a b : Byte, encode (.mul a b) = [0x12, a, b]) ∧
  (∀ (a b : Byte) (s : State) (ha : a.toNat < Config.nreg) (hb : b.toNat < Config.nreg),
    exec (.mul a b) s = .next { s with
      regs := s.regs.set a.toNat (BitVec.ofNat 32 ((s.regs[a.toNat]).toNat * (s.regs[b.toNat]).toNat)) ha }) ∧
  IndexErrorsInOrder .mul ∧
  OperandFetchFaults 0x12 3

/-- 42_arithmetic.md R123: DIV: its encoding; for a divisor that is not 0, `x[regA]` takes the signed quotient rounded toward zero,
modulo 2^32, and nothing else changes; the index errors, then the divisor error, with nothing but the latch written; the
operand fetch past the end of memory. -/
def Obligations.DivTruncatesOrFaultsOnZero : Prop :=
  (∀ a b : Byte, encode (.div a b) = [0x13, a, b]) ∧
  (∀ (a b : Byte) (s : State) (ha : a.toNat < Config.nreg) (hb : b.toNat < Config.nreg), s.regs[b.toNat] ≠ 0 →
    exec (.div a b) s = .next { s with
      regs := s.regs.set a.toNat (BitVec.ofInt 32 ((s.regs[a.toNat]).toInt.tdiv (s.regs[b.toNat]).toInt)) ha }) ∧
  IndexErrorsInOrder .div ∧
  (∀ (a b : Byte) (s : State), a.toNat < Config.nreg → (hb : b.toNat < Config.nreg) → s.regs[b.toNat] = 0 →
    exec (.div a b) s = .next { s with fault := some .divisionByZero }) ∧
  OperandFetchFaults 0x13 3

/-- 42_arithmetic.md R124: MOD: its encoding; for a divisor that is not 0, `x[regA]` takes the dividend less the truncated quotient times
the divisor, modulo 2^32, and nothing else changes; the index errors, then the divisor error, with nothing but the latch
written; the operand fetch past the end of memory. -/
def Obligations.ModTakesSignOfDividendOrFaultsOnZero : Prop :=
  (∀ a b : Byte, encode (.mod a b) = [0x14, a, b]) ∧
  (∀ (a b : Byte) (s : State) (ha : a.toNat < Config.nreg) (hb : b.toNat < Config.nreg), s.regs[b.toNat] ≠ 0 →
    exec (.mod a b) s = .next { s with
      regs := s.regs.set a.toNat (BitVec.ofInt 32 ((s.regs[a.toNat]).toInt -
        (s.regs[a.toNat]).toInt.tdiv (s.regs[b.toNat]).toInt * (s.regs[b.toNat]).toInt)) ha }) ∧
  IndexErrorsInOrder .mod ∧
  (∀ (a b : Byte) (s : State), a.toNat < Config.nreg → (hb : b.toNat < Config.nreg) → s.regs[b.toNat] = 0 →
    exec (.mod a b) s = .next { s with fault := some .divisionByZero }) ∧
  OperandFetchFaults 0x14 3

/-- 42_arithmetic.md R125: ADD, SUB and MUL give the same bit pattern when their operands are read signed, and are the wrapping
operations of a 32-bit word. -/
def Obligations.AddSubMulAgreeInBothReadings : Prop :=
  ∀ (a b : Byte) (s : State) (ha : a.toNat < Config.nreg) (hb : b.toNat < Config.nreg),
    let x := s.regs[a.toNat]
    let y := s.regs[b.toNat]
    (exec (.add a b) s = .next { s with regs := s.regs.set a.toNat (BitVec.ofInt 32 (x.toInt + y.toInt)) ha } ∧
      exec (.add a b) s = .next { s with regs := s.regs.set a.toNat (x + y) ha }) ∧
    (exec (.sub a b) s = .next { s with regs := s.regs.set a.toNat (BitVec.ofInt 32 (x.toInt - y.toInt)) ha } ∧
      exec (.sub a b) s = .next { s with regs := s.regs.set a.toNat (x - y) ha }) ∧
    (exec (.mul a b) s = .next { s with regs := s.regs.set a.toNat (BitVec.ofInt 32 (x.toInt * y.toInt)) ha } ∧
      exec (.mul a b) s = .next { s with regs := s.regs.set a.toNat (x * y) ha })

/-- 42_arithmetic.md R126: DIV rounds toward zero, MOD's remainder has the sign of the dividend and is smaller than the divisor, and
the one overflowing case gives the dividend back with remainder 0. -/
def Obligations.DivisionLawsHoldForEveryOperand : Prop :=
  ∀ (a b : Byte) (s : State) (ha : a.toNat < Config.nreg) (hb : b.toNat < Config.nreg), s.regs[b.toNat] ≠ 0 →
    ∃ q r : Word,
      exec (.div a b) s = .next { s with regs := s.regs.set a.toNat q ha } ∧
      exec (.mod a b) s = .next { s with regs := s.regs.set a.toNat r ha } ∧
      let x := (s.regs[a.toNat]).toInt
      let y := (s.regs[b.toNat]).toInt
      x = x.tdiv y * y + r.toInt ∧ |r.toInt| < |y| ∧ (r.toInt = 0 ∨ r.toInt.sign = x.sign) ∧
      (¬ (x = -2 ^ 31 ∧ y = -1) → q.toInt = x.tdiv y) ∧
      (x = -2 ^ 31 ∧ y = -1 → q = 0x80000000 ∧ r = 0)

/-- 42_arithmetic.md R123, R124, R126: DIV and MOD are the signed division and remainder of 32-bit words that round toward zero. -/
def Obligations.DivAndModAreSignedWordDivision : Prop :=
  ∀ (a b : Byte) (s : State) (ha : a.toNat < Config.nreg) (hb : b.toNat < Config.nreg), s.regs[b.toNat] ≠ 0 →
    exec (.div a b) s = .next { s with
      regs := s.regs.set a.toNat (BitVec.sdiv s.regs[a.toNat] s.regs[b.toNat]) ha } ∧
    exec (.mod a b) s = .next { s with
      regs := s.regs.set a.toNat (BitVec.srem s.regs[a.toNat] s.regs[b.toNat]) ha }

/-- 42_arithmetic.md R127, which the spec infers from R126: the table of division and remainder at every sign combination, and
that DIV and MOD of two registers compute its entries, with `DivisionByZeroError` for every dividend and a divisor of 0. -/
def Obligations.DivisionTableOfEverySign : Prop :=
  (∀ row ∈ ([(7, 2, 3, 1), (-7, 2, -3, -1), (7, -2, -3, 1), (-7, -2, 3, -1), (0, 5, 0, 0), (5, 7, 0, 5),
      (-2147483648, -1, -2147483648, 0), (-2147483648, 1, -2147483648, 0)] : List (Int × Int × Int × Int)),
    divWords (BitVec.ofInt 32 row.1) (BitVec.ofInt 32 row.2.1) = BitVec.ofInt 32 row.2.2.1 ∧
      modWords (BitVec.ofInt 32 row.1) (BitVec.ofInt 32 row.2.1) = BitVec.ofInt 32 row.2.2.2) ∧
  (∀ (a b : Byte) (s : State) (ha : a.toNat < Config.nreg) (hb : b.toNat < Config.nreg), s.regs[b.toNat] ≠ 0 →
    exec (.div a b) s = .next { s with regs := s.regs.set a.toNat (divWords s.regs[a.toNat] s.regs[b.toNat]) ha } ∧
    exec (.mod a b) s = .next { s with regs := s.regs.set a.toNat (modWords s.regs[a.toNat] s.regs[b.toNat]) ha }) ∧
  ∀ (a b : Byte) (s : State), a.toNat < Config.nreg → (hb : b.toNat < Config.nreg) → s.regs[b.toNat] = 0 →
    exec (.div a b) s = .next { s with fault := some .divisionByZero } ∧
    exec (.mod a b) s = .next { s with fault := some .divisionByZero }

/-- 70_reset_and_hazards.md R202, corner cases of 42_arithmetic.md R121, R123, R124: with one register as both operands both sources are
the old value (the spec's own inference from the sequential loop): doubled, 0, squared, and for a value that is not 0 quotient 1
and remainder 0. -/
def Obligations.SameRegisterAsBothOperands : Prop :=
  ∀ (a : Byte) (s : State) (ha : a.toNat < Config.nreg),
    exec (.add a a) s = .next { s with regs := s.regs.set a.toNat (2 * s.regs[a.toNat]) ha } ∧
    exec (.sub a a) s = .next { s with regs := s.regs.set a.toNat 0 ha } ∧
    exec (.mul a a) s = .next { s with regs := s.regs.set a.toNat (s.regs[a.toNat] * s.regs[a.toNat]) ha } ∧
    (s.regs[a.toNat] ≠ 0 →
      exec (.div a a) s = .next { s with regs := s.regs.set a.toNat 1 ha } ∧
      exec (.mod a a) s = .next { s with regs := s.regs.set a.toNat 0 ha })

/-! ### Logic and control -/

/-- 43_logic.md R140: NOT: its encoding; every one of the 32 bits is inverted and nothing else changes; the signed reading is -x - 1; a
value below 256 becomes one STORE rejects; NOT twice restores the state; the index error; the operand fetch past the end. -/
def Obligations.NotComplementsEveryBit : Prop :=
  (∀ a : Byte, encode (.not a) = [0x20, a]) ∧
  (∀ (a : Byte) (s : State) (ha : a.toNat < Config.nreg), ∃ v : Word,
    exec (.not a) s = .next { s with regs := s.regs.set a.toNat v ha } ∧
      (∀ k : Fin 32, v[k] = !(s.regs[a.toNat])[k]) ∧ v.toInt = -(s.regs[a.toNat]).toInt - 1 ∧
      ((s.regs[a.toNat]).toNat < 256 → 256 ≤ v.toNat) ∧
      exec (.not a) { s with regs := s.regs.set a.toNat v ha } = .next s) ∧
  (∀ a : Byte, IndexError a (.not a)) ∧
  OperandFetchFaults 0x20 2

/-- 44_control.md R150: NOP changes nothing but `pc`, and at `MEMSIZE-1` the run then ends with END_OF_MEMORY. -/
def Obligations.NopHasNoEffect : Prop :=
  encode .nop = [0xFE] ∧
  (∀ s : State, exec .nop s = .next s) ∧
  ∀ s : State, s.Enabled → s.mem.cell s.pc = 0xFE →
    step s = .next { s with pc := s.pc + 1 } ∧
    (s.pc + 1 = s.mem.capacity → run s = some (.endOfMemory, { s with pc := s.pc + 1 }))

/-- 44_control.md R151: HALT sets the halted flag and nothing else; the run then returns HALTED, every later run does so at once, and
`loadProgram` does not clear the flag while `reset` does. -/
def Obligations.HaltSetsTheFlagAndEndsTheRun : Prop :=
  encode .halt = [0xFF] ∧
  (∀ s : State, exec .halt s = .next { s with halted := true }) ∧
  (∀ s : State, s.Enabled → s.mem.cell s.pc = 0xFF →
    step s = .next { s with pc := s.pc + 1, halted := true } ∧
    run s = some (.halted, { s with pc := s.pc + 1, halted := true })) ∧
  (∀ s : State, s.fault = none → s.halted = true → run s = some (.halted, s)) ∧
  (∀ (bytes : List Int) (s : State), (loadProgram bytes s).2.halted = s.halted) ∧
  ∀ s : State, s.resetCpu.halted = false

/-! ### Errors, completion and frames -/

/-- 60_exceptions.md R163: one instruction reports the first check that fails: decode and operand fetch, then the register indices
in operand order, then the address, then STORE's value, then the divisor. -/
def Obligations.FirstFailingCheckIsReported : Prop :=
  (∀ s : State, s.Enabled → Opcode.ofByte (s.mem.cell s.pc) = none →
    step s = .next { s with pc := s.pc + 1, fault := some (.unknownOpcode (s.mem.cell s.pc)) }) ∧
  (∀ (s : State) (o : Opcode), s.Enabled → Opcode.ofByte (s.mem.cell s.pc) = some o →
    s.mem.capacity < s.pc + o.format.length →
    step s = .next { s with pc := s.mem.capacity, fault := some (.outOfBounds s.mem.capacity) }) ∧
  (∀ (i : Instr) (s : State) (r : Byte), i.registerOperands.find? (fun r => decide (Config.nreg ≤ r.toNat)) = some r →
    exec i s = .next { s with fault := some (.registerIndex r) }) ∧
  (∀ (i : Instr) (s : State) (a : Byte), (∀ r ∈ i.registerOperands, r.toNat < Config.nreg) →
    i.addressOperand = some a → s.mem.capacity ≤ a.toNat →
    exec i s = .next { s with fault := some (.outOfBounds a.toNat) }) ∧
  (∀ (r a : Byte) (s : State) (hr : r.toNat < Config.nreg), a.toNat < s.mem.capacity → 256 ≤ (s.regs[r.toNat]).toNat →
    exec (.store r a) s = .next { s with fault := some (.valueRange (s.regs[r.toNat]).toNat) }) ∧
  ∀ (a b : Byte) (s : State), a.toNat < Config.nreg → (hb : b.toNat < Config.nreg) → s.regs[b.toNat] = 0 →
    exec (.div a b) s = .next { s with fault := some .divisionByZero } ∧
    exec (.mod a b) s = .next { s with fault := some .divisionByZero }

/-- 40_execution_loop.md R86, 60_exceptions.md R160, R162: an instruction that names only registers and cells that exist completes
without an error, but for a STORE of a value above 255 and a DIV or MOD by 0. R162, that no other error exists, is the spec's
own inference. -/
def Obligations.WellFormedInstructionCompletes : Prop :=
  ∀ (i : Instr) (s : State), i.wellFormed s.mem.capacity = true →
    (∀ (r a : Byte) (hr : r.toNat < Config.nreg), i = .store r a → (s.regs[r.toNat]).toNat < 256) →
    (∀ (a b : Byte) (hb : b.toNat < Config.nreg), i = .div a b ∨ i = .mod a b → s.regs[b.toNat] ≠ 0) →
    ∃ t, exec i s = .next t ∧ t.fault = s.fault

/-- 40_execution_loop.md R89 (the part about execution): every meaning answers a next state, and where it latches an error it changes
nothing else. R89's no-write property is the spec's own inference from R83, R86 and R163. That a step which raises an error is
a next state is the model's form (log entry 2). -/
def Obligations.ExecLatchesErrorsAndNothingElse : Prop :=
  ∀ (i : Instr) (s : State), s.fault = none →
    ∃ t, exec i s = .next t ∧ (t.fault = none ∨ ∃ e, t = { s with fault := some e })

/-- 10_state.md R21, 40_execution_loop.md R86: the frame of the instructions that write a register: only the register their first operand
names can change, and `pc`, `halted`, the memory and every byte of it stay; the latch changes only to take an error. R21's list of
the instructions that write a register is the spec's own inference from the opcode table. -/
def Obligations.RegisterInstructionsFrame : Prop :=
  ∀ (d y : Byte) (i : Instr) (s t : State),
    (i = .load d y ∨ i = .loadImm d y ∨ i = .mov d y ∨ i = .add d y ∨ i = .sub d y ∨ i = .mul d y ∨ i = .div d y ∨
      i = .mod d y ∨ i = .not d) →
    exec i s = .next t →
    (∀ (k : Nat) (hk : k < Config.nreg), k ≠ d.toNat → t.regs[k] = s.regs[k]) ∧
    t.pc = s.pc ∧ t.halted = s.halted ∧ t.mem.capacity = s.mem.capacity ∧ (∀ a : Nat, t.mem.cell a = s.mem.cell a) ∧
    (t.fault = s.fault ∨ ∃ e, t = { s with fault := some e })

/-- 41_data_transfer.md R103, 20_memory.md R48: the frame of STORE: no register, not `pc`, not `halted`, and no byte outside the one cell
its address operand names. -/
def Obligations.StoreFrame : Prop :=
  ∀ (r a : Byte) (s t : State), exec (.store r a) s = .next t →
    t.regs = s.regs ∧ t.pc = s.pc ∧ t.halted = s.halted ∧ t.mem.capacity = s.mem.capacity ∧
    (∀ x : Nat, (x : Int) ≠ address a → t.mem.cell x = s.mem.cell x) ∧
    (t.fault = s.fault ∨ ∃ e, t = { s with fault := some e })

/-- 44_control.md R150, R151: the frame of NOP and HALT: no register, no byte of memory, not `pc` and not the latch; NOP leaves `halted`. -/
def Obligations.ControlInstructionsFrame : Prop :=
  ∀ (i : Instr) (s t : State), i = .nop ∨ i = .halt → exec i s = .next t →
    t.regs = s.regs ∧ t.pc = s.pc ∧ t.fault = s.fault ∧ t.mem.capacity = s.mem.capacity ∧
    (∀ x : Nat, t.mem.cell x = s.mem.cell x) ∧ (i = .nop → t.halted = s.halted)

/-! ### Rules of the whole machine -/

/-- 10_state.md R25: a step ends with the halted flag set exactly when the opcode it fetched is HALT's. -/
def Obligations.OnlyHaltSetsHalted : Prop :=
  ∀ s t : State, step s = .next t → (t.halted = true ↔ s.mem.cell s.pc = 0xFF)

/-- 10_state.md R28, 20_memory.md R49, 30_encoding.md R61: a step changes memory only where the opcode fetched is STORE's, then only in the
cell the second operand byte names, and never at address 256 or above. -/
def Obligations.OnlyStoreWritesMemory : Prop :=
  ∀ s t : State, step s = .next t →
    t.mem.capacity = s.mem.capacity ∧
    (s.mem.cell s.pc ≠ 0x04 → t.mem = s.mem) ∧
    (∀ x : Nat, x ≠ (s.mem.cell (s.pc + 2)).toNat → t.mem.cell x = s.mem.cell x) ∧
    ∀ x : Nat, 256 ≤ x → t.mem.cell x = s.mem.cell x

/-- 10_state.md R21, 40_execution_loop.md R86: a step changes at most the register its first operand byte names, and none where the opcode
fetched is STORE's, NOP's or HALT's. R21's list of the instructions that write a register is the spec's own inference from the
opcode table. -/
def Obligations.StepWritesAtMostOneRegister : Prop :=
  ∀ s t : State, step s = .next t →
    (∀ (k : Nat) (hk : k < Config.nreg), k ≠ (s.mem.cell (s.pc + 1)).toNat → t.regs[k] = s.regs[k]) ∧
    (s.mem.cell s.pc = 0x04 ∨ s.mem.cell s.pc = 0xFE ∨ s.mem.cell s.pc = 0xFF → t.regs = s.regs)

/-- 20_memory.md R40, R49: cells at address 256 and above reach the machine only as instruction bytes: two states that agree on
everything but such cells, and agree on the three bytes at `pc`, step to states that agree in the same way. -/
def Obligations.FarCellsMatterOnlyWhenFetched : Prop :=
  ∀ s s' t : State, s.mem.wf → s'.mem.wf →
    s'.regs = s.regs → s'.pc = s.pc → s'.halted = s.halted → s'.fault = s.fault → s'.mem.capacity = s.mem.capacity →
    (∀ x : Nat, x < 256 → s'.mem.cell x = s.mem.cell x) →
    (∀ k : Nat, k < 3 → s'.mem.cell (s.pc + k) = s.mem.cell (s.pc + k)) →
    step s = .next t →
    ∃ t', step s' = .next t' ∧ t'.regs = t.regs ∧ t'.pc = t.pc ∧ t'.halted = t.halted ∧ t'.fault = t.fault ∧
      ∀ x : Nat, x < 256 → t'.mem.cell x = t.mem.cell x

/-- 60_exceptions.md R165: faults are precise: a step that raises an error writes no register, no cell and not `halted`, and leaves
`pc` at the opcode address + 1 for an illegal opcode, at `MEMSIZE` for a failed operand fetch, and after the instruction
for every other error. The error is one a run can raise (R161): code 2, 3, 5, 6 or 7. R165 is the spec's own inference from
R80, R84 and R89. -/
def Obligations.FaultsArePrecise : Prop :=
  ∀ (s t : State) (e : MachineError), step s = .next t → t.fault = some e →
    t.regs = s.regs ∧ t.mem = s.mem ∧ t.halted = s.halted ∧ e.code ∈ [2, 3, 5, 6, 7] ∧
    (∀ op, decode (s.mem.bytesFrom s.pc 3) = .error (.unknownOpcode op) → e = .unknownOpcode op ∧ t.pc = s.pc + 1) ∧
    (∀ op, decode (s.mem.bytesFrom s.pc 3) = .error (.missingOperand op) →
      e = .outOfBounds s.mem.capacity ∧ t.pc = s.mem.capacity) ∧
    (∀ i rest, decode (s.mem.bytesFrom s.pc 3) = .ok (i, rest) → t.pc = s.pc + i.length)

/-- 60_exceptions.md R160: the codes and the info of the error kinds. -/
def Obligations.ErrorCodesAndInfo : Prop :=
  (∀ n, (MachineError.invalidSize n).code = 1 ∧ (MachineError.invalidSize n).info = some n) ∧
  (∀ a, (MachineError.outOfBounds a).code = 2 ∧ (MachineError.outOfBounds a).info = some a) ∧
  (∀ v, (MachineError.valueRange v).code = 3 ∧ (MachineError.valueRange v).info = some v) ∧
  (∀ n, (MachineError.programTooLarge n).code = 4 ∧ (MachineError.programTooLarge n).info = some (n : Int)) ∧
  (MachineError.divisionByZero.code = 5 ∧ MachineError.divisionByZero.info = none) ∧
  (∀ op, (MachineError.unknownOpcode op).code = 6 ∧ (MachineError.unknownOpcode op).info = some (op.toNat : Int)) ∧
  (∀ i, (MachineError.registerIndex i).code = 7 ∧ (MachineError.registerIndex i).info = some (i.toNat : Int)) ∧
  faultCode none = 0

/-! ### Invariants -/

/-- The invariant holds at reset: `pc`, `halted` and the latch as 10_state.md R31 gives them. The capacity there is the model's
choice (log entry 1, DESIGN CHOICE), and the canonical form of the memory, the clause `mem_wf`, is the model's representation
(log entry 4, DESIGN CHOICE). -/
def Obligations.ResetStateMeetsInv : Prop := State.reset.Inv

/-- Every step from a state that meets the invariant ends in one that does. Its clauses: a positive capacity, 20_memory.md R41;
a latch that holds only errors of a run, 10_state.md R27 and 60_exceptions.md R161; `pc_le`, which 10_state.md section 2 marks
as the spec's own inference from R42 and R80; `fault_not_halted`, the model's inference from 44_control.md R151 (only HALT,
which raises nothing, sets the flag), from R87 (no step follows HALT) and from 60_exceptions.md section 3 (a step that raises
an error does not write `halted`, itself the spec's inference); and `mem_wf`, the canonical form of the memory, the model's
representation (log entry 4, DESIGN CHOICE). -/
def Obligations.EveryStepKeepsInv : Prop :=
  ∀ s t : State, s.Inv → step s = .next t → t.Inv

/-- 70_reset_and_hazards.md R190, R192: every state any host can bring the machine into, by construction and any sequence of its
transactions, meets the invariant. Its clauses rest on what `Obligations.EveryStepKeepsInv` names: 20_memory.md R41, 10_state.md
R27 and 60_exceptions.md R161 for the capacity and the latch; the spec's own inference for `pc_le`; the model's inference for
`fault_not_halted`; and log entry 4 (DESIGN CHOICE) for `mem_wf`, the canonical form of the memory. -/
def Obligations.EveryReachableStateMeetsInv : Prop :=
  ∀ s : State, Reachable s → s.Inv

/-! ### The run loop -/

/-- 40_execution_loop.md R88: every run ends, after at most `MEMSIZE - pc` steps, in a state where no step is enabled, and `run` reports
why. R88 is the spec's own inference ("every run ends after at most `MEMSIZE - pc` steps") from R23, R85 and R87; a step that
raises an error counts as a step (log entry 2). -/
def Obligations.EveryRunEndsWithinMemorySize : Prop :=
  ∀ s : State, ∃ (n : Nat) (t : State) (r : Fault),
    n ≤ s.mem.capacity - s.pc ∧ StepsTo n s t ∧ step t = .fault r ∧ run s = some (RunOutcome.ofStop r, t)

/-- 40_execution_loop.md R87: a run is a step followed by the run of the state after it. -/
def Obligations.RunIsStepThenRun : Prop :=
  ∀ s t : State, step s = .next t → run s = run t

/-- 40_execution_loop.md R87, 60_exceptions.md R168: a run of a latched machine reports the same fault again and executes no step; a run
of a halted machine, and one at the top of memory, end at once. -/
def Obligations.StoppedMachineRunsNoStep : Prop :=
  ∀ s : State,
    (∀ e, s.fault = some e → run s = some (.fault e, s)) ∧
    (s.fault = none → s.halted = true → run s = some (.halted, s)) ∧
    (s.fault = none → s.halted = false → s.mem.capacity ≤ s.pc → run s = some (.endOfMemory, s))

/-- 70_reset_and_hazards.md R201, 90_conflicts.md C3: what a run's outcome says of the state it leaves: HALTED means the flag is set,
END_OF_MEMORY that it is not, both with no fault; FAULT means the latch holds that error. -/
def Obligations.RunOutcomeMatchesFinalState : Prop :=
  ∀ (s t : State) (o : RunOutcome), run s = some (o, t) →
    (o = .halted → t.halted = true ∧ t.fault = none) ∧
    (o = .endOfMemory → t.halted = false ∧ t.fault = none ∧ t.mem.capacity ≤ t.pc) ∧
    (∀ e, o = .fault e → t.fault = some e) ∧
    (o.EndsWell ↔ t.fault = none)

/-! ### The host -/

/-- 20_memory.md R41, 70_reset_and_hazards.md R192, 10_state.md R31: construction fails with `InvalidSizeError` unless the size is a positive
integer; otherwise every register and every cell is 0, `pc` is 0, the engine is Running with no fault, and `reset` would give
the same state. -/
def Obligations.ConstructionClearsEverything : Prop :=
  (∀ size : Int, size < 1 → construct size = .error (.invalidSize size)) ∧
  ∀ size : Int, 1 ≤ size → ∃ s, construct size = .ok s ∧ (s.mem.capacity : Int) = size ∧
    (∀ (k : Nat) (hk : k < Config.nreg), s.regs[k] = 0) ∧ s.pc = 0 ∧ s.halted = false ∧ s.fault = none ∧
    (∀ a : Nat, s.mem.cell a = 0) ∧ s.resetCpu = s

/-- 70_reset_and_hazards.md R191: `reset` clears `pc`, `halted`, every register and the latch, does not touch memory, raises no error and
leaves the engine Running. -/
def Obligations.ResetClearsTheCpuAndKeepsMemory : Prop :=
  ∀ s : State, ∃ t, hostOp .reset s = (.done, t) ∧ t.pc = 0 ∧ t.halted = false ∧ t.fault = none ∧
    (∀ (k : Nat) (hk : k < Config.nreg), t.regs[k] = 0) ∧ t.mem = s.mem

/-- The state `State.reset` is the machine constructed with the capacity the model chose (log entry 1). -/
def Obligations.ResetStateIsConstruction : Prop :=
  construct 65536 = .ok State.reset ∧ State.reset.resetCpu = State.reset

/-- 70_reset_and_hazards.md R194: `loadProgram`: too long a program changes nothing; a program of byte values is written from address 0,
the tail of memory kept, and `pc` cleared; at the first element that is no byte value the operation fails with the
prefix written and `pc` unchanged. Registers, `halted` and `fault` stay in every case. That the cells from the program's
length on keep their contents is the spec's own inference, from R43 and the text R194 quotes. -/
def Obligations.LoadProgramWritesFromAddressZero : Prop :=
  ∀ (bytes : List Int) (s : State), s.mem.wf →
    (s.mem.capacity < bytes.length → loadProgram bytes s = (.failed (.programTooLarge bytes.length), s)) ∧
    (bytes.length ≤ s.mem.capacity → (∀ v ∈ bytes, 0 ≤ v ∧ v < 256) →
      ∃ m : Memory, loadProgram bytes s = (.done, { s with mem := m, pc := 0 }) ∧ m.capacity = s.mem.capacity ∧
        (∀ (k : Nat) (hk : k < bytes.length), ((m.cell k).toNat : Int) = bytes[k]) ∧
        ∀ k : Nat, bytes.length ≤ k → m.cell k = s.mem.cell k) ∧
    (bytes.length ≤ s.mem.capacity → ∀ (n : Nat) (hn : n < bytes.length),
      (∀ (k : Nat) (hk : k < n), 0 ≤ bytes[k] ∧ bytes[k] < 256) → (bytes[n] < 0 ∨ 256 ≤ bytes[n]) →
      ∃ m : Memory, loadProgram bytes s = (.failed (.valueRange bytes[n]), { s with mem := m }) ∧
        m.capacity = s.mem.capacity ∧ (∀ (k : Nat) (hk : k < n), ((m.cell k).toNat : Int) = bytes[k]) ∧
        ∀ k : Nat, n ≤ k → m.cell k = s.mem.cell k)

/-- 70_reset_and_hazards.md R200: boot: a program that begins with an instruction, loaded into a Running machine with no fault, executes
that instruction in its first step. -/
def Obligations.LoadedProgramStartsWithItsFirstInstruction : Prop :=
  ∀ (i : Instr) (rest : List Byte) (s : State), s.mem.wf → s.fault = none → s.halted = false →
    (encode i ++ rest).length ≤ s.mem.capacity →
    ∃ t, loadProgram ((encode i ++ rest).map fun b => (b.toNat : Int)) s = (.done, t) ∧
      t.regs = s.regs ∧ step t = exec i { t with pc := i.length }

/-- 70_reset_and_hazards.md R193, 60_exceptions.md R161: a host read answers the cell or the error and changes nothing; a host write changes
at most the one cell; an error of either sets no latch. -/
def Obligations.HostReadAndWriteAnswer : Prop :=
  ∀ (s : State) (addr v : Int),
    (∀ b, s.mem.read addr = .ok b → hostOp (.read addr) s = (.byte b, s)) ∧
    (∀ e, s.mem.read addr = .error e → hostOp (.read addr) s = (.failed e, s)) ∧
    (∀ m, s.mem.write addr v = .ok m → hostOp (.write addr v) s = (.done, { s with mem := m })) ∧
    (∀ e, s.mem.write addr v = .error e → hostOp (.write addr v) s = (.failed e, s))

/-- 70_reset_and_hazards.md R197, R198, R199: the accessors report the registers, the flag, `pc` and the latch, the size and every cell, and
change nothing. -/
def Obligations.AccessorsReportAndChangeNothing : Prop :=
  ∀ s : State,
    hostOp .getRegisters s = (.registers s.regs, s) ∧
    hostOp .isHalted s = (.flag s.halted, s) ∧
    hostOp .size s = (.size s.mem.capacity, s) ∧
    (s.fault = none → hostOp .status s = (.status ⟨s.halted, s.pc, 0, none⟩, s)) ∧
    (∀ e, s.fault = some e → hostOp .status s = (.status ⟨s.halted, s.pc, e.code, e.info⟩, s)) ∧
    ∃ cells : List Byte, hostOp .view s = (.view cells, s) ∧ cells.length = s.mem.capacity ∧
      ∀ (k : Nat) (hk : k < cells.length), cells[k] = s.mem.cell k

/-- 60_exceptions.md R168, 10_state.md R25, R27: no transaction of the host but `reset` clears the latch or the halted flag, and
none but `reset` and `run` writes the latch or the flag at all. That none but `reset` and `run` writes a register is the host
sentence of 10_state.md R21, which the spec marks as its own inference (from R197); 44_control.md R154, that only `reset`
leaves the Halted state, is another of the spec's inferences (from R151 and R25). -/
def Obligations.OnlyResetLeavesFaultOrHalted : Prop :=
  ∀ (op : HostOp) (s : State), op ≠ .reset →
    (∀ e, s.fault = some e → (hostOp op s).2.fault = some e) ∧
    (s.halted = true → (hostOp op s).2.halted = true) ∧
    (op ≠ .run → (hostOp op s).2.regs = s.regs ∧ (hostOp op s).2.fault = s.fault ∧ (hostOp op s).2.halted = s.halted)

/-- 20_memory.md R41: no step and no transaction changes the capacity. -/
def Obligations.CapacityIsFixedAtConstruction : Prop :=
  (∀ s t : State, step s = .next t → t.mem.capacity = s.mem.capacity) ∧
  ∀ (op : HostOp) (s : State), (hostOp op s).2.mem.capacity = s.mem.capacity
end

