-- ==== Sys2Proof/Laws/Decode.lean ====
section
/-! SUPPORT. Small lemmas of the opcode map: the row an opcode byte selects, and what a row's shape builds. -/

namespace Sys2Proof

/-- Every row is found by its own opcode byte (30_encoding.md R64). -/
@[simp] theorem Opcode.ofByte_byte (o : Opcode) : Opcode.ofByte o.byte = some o := by cases o <;> rfl

/-- A byte selects a row only when it is that row's opcode byte (30_encoding.md R67). -/
theorem Opcode.byte_of_ofByte {b : Byte} {o : Opcode} (h : Opcode.ofByte b = some o) : b = o.byte := by
  have := List.find?_some h
  simpa using (beq_iff_eq.mp this).symm

/-- A byte selects no row exactly when it is no row's opcode byte (30_encoding.md R65). -/
theorem Opcode.ofByte_eq_none {b : Byte} : Opcode.ofByte b = none ↔ ∀ o : Opcode, o.byte ≠ b := by
  constructor
  · intro h o ho
    rw [← ho, Opcode.ofByte_byte] at h
    cases h
  · intro h
    cases hb : Opcode.ofByte b with
    | none => rfl
    | some o => exact absurd (Opcode.byte_of_ofByte hb).symm (h o)

/-- An instruction is one to three bytes long (30_encoding.md R60). -/
theorem Instr.length_pos (i : Instr) : 1 ≤ i.length := by cases i <;> exact Nat.le_add_left 1 _

theorem Instr.length_le (i : Instr) : i.length ≤ 3 := by
  unfold Instr.length
  generalize i.opcode = o
  cases o <;> decide

/-- An instruction is as long as its encoding (30_encoding.md R63). -/
theorem encode_length (i : Instr) : (encode i).length = i.length := by cases i <;> rfl

/-- What a row without operands builds. -/
theorem Opcode.shape_noOperand {o : Opcode} {i : Instr} (h : o.shape = .noOperand i) :
    i.opcode = o ∧ i.operands = [] ∧ i.length = 1 := by
  cases o <;> cases h <;> exact ⟨rfl, rfl, rfl⟩

/-- What a row with one operand builds. -/
theorem Opcode.shape_oneOperand {o : Opcode} {mk : Byte → Instr} (h : o.shape = .oneOperand mk) (a : Byte) :
    (mk a).opcode = o ∧ (mk a).operands = [a] ∧ (mk a).length = 2 := by
  cases o <;> cases h <;> exact ⟨rfl, rfl, rfl⟩

/-- What a row with two operands builds. -/
theorem Opcode.shape_twoOperands {o : Opcode} {mk : Byte → Byte → Instr} (h : o.shape = .twoOperands mk) (a b : Byte) :
    (mk a b).opcode = o ∧ (mk a b).operands = [a, b] ∧ (mk a b).length = 3 := by
  cases o <;> cases h <;> exact ⟨rfl, rfl, rfl⟩

end Sys2Proof
end

