-- ==== Sys2Proof/Laws/State.lean ====
section
/-! SUPPORT. One lemma per field per update of State, so that no later proof unfolds a record update. -/

namespace Sys2Proof.Machine

@[simp] theorem State.setReg_regs (s : State) (i : Fin Config.nreg) (v : Word) : (s.setReg i v).regs = s.regs.set i v := rfl
@[simp] theorem State.setReg_pc (s : State) (i : Fin Config.nreg) (v : Word) : (s.setReg i v).pc = s.pc := rfl
@[simp] theorem State.setReg_halted (s : State) (i : Fin Config.nreg) (v : Word) : (s.setReg i v).halted = s.halted := rfl
@[simp] theorem State.setReg_fault (s : State) (i : Fin Config.nreg) (v : Word) : (s.setReg i v).fault = s.fault := rfl
@[simp] theorem State.setReg_mem (s : State) (i : Fin Config.nreg) (v : Word) : (s.setReg i v).mem = s.mem := rfl

@[simp] theorem State.setPc_regs (s : State) (v : Nat) : (s.setPc v).regs = s.regs := rfl
@[simp] theorem State.setPc_pc (s : State) (v : Nat) : (s.setPc v).pc = v := rfl
@[simp] theorem State.setPc_halted (s : State) (v : Nat) : (s.setPc v).halted = s.halted := rfl
@[simp] theorem State.setPc_fault (s : State) (v : Nat) : (s.setPc v).fault = s.fault := rfl
@[simp] theorem State.setPc_mem (s : State) (v : Nat) : (s.setPc v).mem = s.mem := rfl

@[simp] theorem State.setMem_regs (s : State) (m : Memory) : (s.setMem m).regs = s.regs := rfl
@[simp] theorem State.setMem_pc (s : State) (m : Memory) : (s.setMem m).pc = s.pc := rfl
@[simp] theorem State.setMem_halted (s : State) (m : Memory) : (s.setMem m).halted = s.halted := rfl
@[simp] theorem State.setMem_fault (s : State) (m : Memory) : (s.setMem m).fault = s.fault := rfl
@[simp] theorem State.setMem_mem (s : State) (m : Memory) : (s.setMem m).mem = m := rfl

@[simp] theorem State.setHalted_regs (s : State) (b : Bool) : (s.setHalted b).regs = s.regs := rfl
@[simp] theorem State.setHalted_pc (s : State) (b : Bool) : (s.setHalted b).pc = s.pc := rfl
@[simp] theorem State.setHalted_halted (s : State) (b : Bool) : (s.setHalted b).halted = b := rfl
@[simp] theorem State.setHalted_fault (s : State) (b : Bool) : (s.setHalted b).fault = s.fault := rfl
@[simp] theorem State.setHalted_mem (s : State) (b : Bool) : (s.setHalted b).mem = s.mem := rfl

@[simp] theorem State.takeError_regs (s : State) (e : MachineError) : (s.takeError e).regs = s.regs := rfl
@[simp] theorem State.takeError_pc (s : State) (e : MachineError) : (s.takeError e).pc = s.pc := rfl
@[simp] theorem State.takeError_halted (s : State) (e : MachineError) : (s.takeError e).halted = s.halted := rfl
@[simp] theorem State.takeError_fault (s : State) (e : MachineError) : (s.takeError e).fault = some e := rfl
@[simp] theorem State.takeError_mem (s : State) (e : MachineError) : (s.takeError e).mem = s.mem := rfl

@[simp] theorem State.resetCpu_regs (s : State) : s.resetCpu.regs = Vector.replicate Config.nreg 0 := rfl
@[simp] theorem State.resetCpu_pc (s : State) : s.resetCpu.pc = 0 := rfl
@[simp] theorem State.resetCpu_halted (s : State) : s.resetCpu.halted = false := rfl
@[simp] theorem State.resetCpu_fault (s : State) : s.resetCpu.fault = none := rfl
@[simp] theorem State.resetCpu_mem (s : State) : s.resetCpu.mem = s.mem := rfl

@[simp] theorem State.ofCapacity_regs (n : Nat) : (State.ofCapacity n).regs = Vector.replicate Config.nreg 0 := rfl
@[simp] theorem State.ofCapacity_pc (n : Nat) : (State.ofCapacity n).pc = 0 := rfl
@[simp] theorem State.ofCapacity_halted (n : Nat) : (State.ofCapacity n).halted = false := rfl
@[simp] theorem State.ofCapacity_fault (n : Nat) : (State.ofCapacity n).fault = none := rfl
@[simp] theorem State.ofCapacity_mem (n : Nat) : (State.ofCapacity n).mem = { capacity := n, cells := [] } := rfl

@[simp] theorem Memory.setCell_capacity (m : Memory) (a : Nat) (b : Byte) : (m.setCell a b).capacity = m.capacity := rfl

/-- Two states with equal fields are equal. -/
theorem State.eq_of_fields {s t : State} (hr : s.regs = t.regs) (hp : s.pc = t.pc) (hh : s.halted = t.halted)
    (hf : s.fault = t.fault) (hm : s.mem = t.mem) : s = t := by
  cases s; cases t; simp_all

/-- Reading back a register that was just written. -/
@[simp] theorem State.reg_setReg_same (s : State) (i : Fin Config.nreg) (v : Word) : (s.setReg i v).reg i = v := by
  simp [State.reg, State.setReg]

/-- A register write leaves every other register alone. -/
theorem State.reg_setReg_ne (s : State) (i j : Fin Config.nreg) (v : Word) (h : i ≠ j) :
    (s.setReg i v).reg j = s.reg j := by
  have : (i : Nat) ≠ j := fun e => h (Fin.ext e)
  simp [State.reg, State.setReg, this]

@[simp] theorem State.reg_setPc (s : State) (v : Nat) (i : Fin Config.nreg) : (s.setPc v).reg i = s.reg i := rfl

/-- A register read by its number, as the register file's own entry. -/
theorem State.reg_eq_getElem (s : State) (n : Nat) (h : n < Config.nreg) : s.reg ⟨n, h⟩ = s.regs[n] := rfl

end Sys2Proof.Machine
end

