-- ==== Sys2Proof/Laws/Memory.lean ====
section
/-! SUPPORT. The laws of the memory operations: what reading and writing one cell can do, and that every operation keeps the
canonical form. -/

namespace Sys2Proof.Machine

/-! ### Cell lists -/

/-- A list that names no address up to `a` gives `a` the unlisted value. -/
theorem Memory.lookup_of_lt (a : Nat) (l : List Host.Cell) (h : ∀ c ∈ l, a < c.1) :
    Memory.lookup a l = Memory.unlisted := by
  induction l with
  | nil => rfl
  | cons c cs ih =>
    have hc := h c (by simp)
    rw [Memory.lookup, if_neg (by omega), ih fun d hd => h d (by simp [hd])]

/-- An address a write does not name keeps its value, whatever the list. -/
theorem Memory.lookup_insert_ne (a a' : Nat) (b : Byte) (l : List Host.Cell) (h : a' ≠ a) :
    Memory.lookup a' (Memory.insert a b l) = Memory.lookup a' l := by
  induction l with
  | nil => by_cases hb : b = Memory.unlisted <;> simp [Memory.insert, Memory.lookup, hb, h.symm]
  | cons c cs ih =>
    unfold Memory.insert
    split
    · split <;> simp [Memory.lookup, h.symm]
    · split
      · rename_i hc
        have : c.1 ≠ a' := by omega
        split <;> simp [Memory.lookup, h.symm, this]
      · simp [Memory.lookup, ih]

/-- In a list of strictly rising addresses, an address just written holds the value written. -/
theorem Memory.lookup_insert_same (a : Nat) (b : Byte) (l : List Host.Cell)
    (hs : l.Pairwise (fun c d => c.1 < d.1)) : Memory.lookup a (Memory.insert a b l) = b := by
  induction l with
  | nil => by_cases hb : b = Memory.unlisted <;> simp [Memory.insert, Memory.lookup, hb]
  | cons c cs ih =>
    obtain ⟨hc, hcs⟩ := List.pairwise_cons.mp hs
    unfold Memory.insert
    split
    · rename_i hlt
      split
      · rename_i hb
        rw [hb]
        refine Memory.lookup_of_lt a _ fun d hd => ?_
        rcases List.mem_cons.mp hd with rfl | hd
        · exact hlt
        · have := hc d hd; omega
      · simp [Memory.lookup]
    · split
      · rename_i heq
        split
        · rename_i hb
          rw [hb]
          exact Memory.lookup_of_lt a _ fun d hd => by have := hc d hd; omega
        · simp [Memory.lookup]
      · rename_i hne
        rw [Memory.lookup, if_neg (Ne.symm hne), ih hcs]

/-- What a write can put in a list: the old entries, and the new one where its value is not the unlisted one. -/
theorem Memory.mem_insert {a : Nat} {b : Byte} {l : List Host.Cell} {c : Host.Cell} (h : c ∈ Memory.insert a b l) :
    c ∈ l ∨ (c = (a, b) ∧ b ≠ Memory.unlisted) := by
  induction l with
  | nil => unfold Memory.insert at h; split at h <;> simp_all
  | cons d ds ih =>
    unfold Memory.insert at h
    split at h
    · split at h <;> simp_all <;> tauto
    · split at h
      · split at h <;> simp_all <;> tauto
      · rcases List.mem_cons.mp h with rfl | h
        · simp
        · rcases ih h with h | h <;> simp_all

/-- A write keeps the addresses strictly rising. -/
theorem Memory.insert_pairwise (a : Nat) (b : Byte) (l : List Host.Cell) (hs : l.Pairwise (fun c d => c.1 < d.1)) :
    (Memory.insert a b l).Pairwise (fun c d => c.1 < d.1) := by
  induction l with
  | nil => unfold Memory.insert; split <;> simp
  | cons c cs ih =>
    obtain ⟨hc, hcs⟩ := List.pairwise_cons.mp hs
    unfold Memory.insert
    split
    · rename_i hlt
      split
      · exact hs
      · refine List.pairwise_cons.mpr ⟨fun d hd => ?_, hs⟩
        rcases List.mem_cons.mp hd with rfl | hd
        · exact hlt
        · have := hc d hd; simp only; omega
    · split
      · rename_i heq
        split
        · exact hcs
        · exact List.pairwise_cons.mpr ⟨fun d hd => by have := hc d hd; simp only; omega, hcs⟩
      · refine List.pairwise_cons.mpr ⟨fun d hd => ?_, ih hcs⟩
        rcases Memory.mem_insert hd with hd | ⟨rfl, -⟩
        · exact hc d hd
        · simp only; omega

/-! ### One cell -/

/-- A cell just written holds the value written. -/
theorem Memory.cell_setCell_same (m : Memory) (a : Nat) (b : Byte) (h : m.wf) : (m.setCell a b).cell a = b :=
  Memory.lookup_insert_same a b m.cells h.1

/-- Every other cell is unchanged. -/
theorem Memory.cell_setCell_ne (m : Memory) (a a' : Nat) (b : Byte) (h : a' ≠ a) :
    (m.setCell a b).cell a' = m.cell a' :=
  Memory.lookup_insert_ne a a' b m.cells h

/-- Writing a cell inside the capacity keeps the canonical form. -/
theorem Memory.setCell_wf (m : Memory) (a : Nat) (b : Byte) (h : m.wf) (ha : a < m.capacity) : (m.setCell a b).wf := by
  refine ⟨Memory.insert_pairwise a b m.cells h.1, fun c hc => ?_⟩
  rcases Memory.mem_insert hc with hc | ⟨rfl, hb⟩
  · exact h.2 c hc
  · exact ⟨ha, hb⟩

/-- The memory after construction has the canonical form. -/
theorem Memory.wf_empty (n : Nat) : (Memory.mk n []).wf := by simp [Memory.wf]

/-- Every cell of a memory with nothing listed reads 0. -/
@[simp] theorem Memory.cell_empty (n a : Nat) : (Memory.mk n []).cell a = 0 := rfl

/-! ### Checked reads and writes -/

/-- A read inside the capacity gives the cell. -/
theorem Memory.read_of_lt (m : Memory) (a : Nat) (h : a < m.capacity) : m.read a = .ok (m.cell a) := by
  simp [Memory.read, h]

/-- A read at or above the capacity fails. -/
theorem Memory.read_of_ge (m : Memory) (a : Nat) (h : m.capacity ≤ a) : m.read a = .error (.outOfBounds a) := by
  simp [Memory.read]; omega

/-- All a read can answer: the cell of an address inside the capacity, or the address as an error. -/
theorem Memory.read_cases (m : Memory) (addr : Int) :
    (∃ a : Nat, addr = a ∧ a < m.capacity ∧ m.read addr = .ok (m.cell a)) ∨
      ((addr < 0 ∨ (m.capacity : Int) ≤ addr) ∧ m.read addr = .error (.outOfBounds addr)) := by
  by_cases h : 0 ≤ addr ∧ addr < m.capacity
  · exact .inl ⟨addr.toNat, by omega, by omega, by simp [Memory.read, h]⟩
  · exact .inr ⟨by omega, by simp only [Memory.read, if_neg h]⟩

/-- All a write can answer: one cell of an address inside the capacity set to a byte value; or the address as an error;
or, the address being right, the value as an error. -/
theorem Memory.write_cases (m : Memory) (addr v : Int) :
    (∃ (a : Nat) (b : Byte), addr = a ∧ a < m.capacity ∧ v = b.toNat ∧ m.write addr v = .ok (m.setCell a b)) ∨
      ((addr < 0 ∨ (m.capacity : Int) ≤ addr) ∧ m.write addr v = .error (.outOfBounds addr)) ∨
      ((0 ≤ addr ∧ addr < m.capacity) ∧ (v < 0 ∨ 256 ≤ v) ∧ m.write addr v = .error (.valueRange v)) := by
  by_cases h : 0 ≤ addr ∧ addr < m.capacity
  · by_cases hv : 0 ≤ v ∧ v < 256
    · refine .inl ⟨addr.toNat, BitVec.ofInt 8 v, by omega, by omega, ?_, by simp only [Memory.write, if_pos h, if_pos hv]⟩
      rw [BitVec.toNat_ofInt]; omega
    · exact .inr (.inr ⟨h, by omega, by simp only [Memory.write, if_pos h, if_neg hv]⟩)
  · exact .inr (.inl ⟨by omega, by simp only [Memory.write, if_neg h]⟩)

/-- A write that succeeds sets one cell inside the capacity. -/
theorem Memory.write_ok {m m' : Memory} {addr v : Int} (h : m.write addr v = .ok m') :
    ∃ (a : Nat) (b : Byte), addr = a ∧ a < m.capacity ∧ v = b.toNat ∧ m' = m.setCell a b := by
  rcases Memory.write_cases m addr v with ⟨a, b, h1, h2, h3, h4⟩ | ⟨-, h4⟩ | ⟨-, -, h4⟩ <;> rw [h4] at h
  · exact ⟨a, b, h1, h2, h3, by injection h with h; exact h.symm⟩
  · cases h
  · cases h

/-- A write of a byte value inside the capacity. -/
theorem Memory.write_of_lt (m : Memory) (a : Nat) (b : Byte) (h : a < m.capacity) :
    m.write a b.toNat = .ok (m.setCell a b) := by
  rcases Memory.write_cases m a b.toNat with ⟨a', b', h1, -, h3, h4⟩ | ⟨h1, -⟩ | ⟨-, h2, -⟩
  · obtain rfl : a = a' := by omega
    obtain rfl : b = b' := BitVec.eq_of_toNat_eq (by omega)
    exact h4
  · omega
  · have := b.isLt; omega

/-- A write that succeeds keeps the canonical form and the capacity. -/
theorem Memory.write_wf {m m' : Memory} {addr v : Int} (h : m.write addr v = .ok m') (hw : m.wf) :
    m'.wf ∧ m'.capacity = m.capacity := by
  obtain ⟨a, b, -, ha, -, rfl⟩ := Memory.write_ok h
  exact ⟨Memory.setCell_wf m a b hw ha, rfl⟩

/-! ### Sequences of writes -/

/-- A sequence of writes keeps the capacity. -/
theorem Memory.writeAll_capacity (m : Memory) (addr : Int) (vs : List Int) :
    (m.writeAll addr vs).1.capacity = m.capacity := by
  induction vs generalizing m addr with
  | nil => rfl
  | cons v vs ih =>
    unfold Memory.writeAll
    split
    · rename_i m' h
      obtain ⟨a, b, -, -, -, rfl⟩ := Memory.write_ok h
      rw [ih]; rfl
    · rfl

/-- A sequence of writes keeps the canonical form. -/
theorem Memory.writeAll_wf (m : Memory) (addr : Int) (vs : List Int) (h : m.wf) : (m.writeAll addr vs).1.wf := by
  induction vs generalizing m addr with
  | nil => exact h
  | cons v vs ih =>
    unfold Memory.writeAll
    split
    · rename_i m' hw
      exact ih m' _ (Memory.write_wf hw h).1
    · exact h

/-- A sequence of byte values that fits is written whole, from its address on, and no other cell changes. -/
theorem Memory.writeAll_of_bytes (m : Memory) (a : Nat) (vs : List Int) (hw : m.wf) (hl : a + vs.length ≤ m.capacity)
    (hv : ∀ v ∈ vs, 0 ≤ v ∧ v < 256) :
    ∃ m', m.writeAll a vs = (m', none) ∧ m'.wf ∧ m'.capacity = m.capacity ∧
      (∀ k (hk : k < vs.length), ((m'.cell (a + k)).toNat : Int) = vs[k]) ∧
      ∀ k, k < a ∨ a + vs.length ≤ k → m'.cell k = m.cell k := by
  induction vs generalizing m a with
  | nil => exact ⟨m, rfl, hw, rfl, by simp, fun _ _ => rfl⟩
  | cons v vs ih =>
    simp only [List.length_cons] at hl
    have hv0 := hv v (by simp)
    rcases m.write_cases a v with ⟨a', b, ha, hlt, hb, h1⟩ | ⟨h, -⟩ | ⟨-, h, -⟩
    · obtain rfl : a = a' := Int.ofNat_inj.mp ha
      obtain ⟨m2, h2, hw2, hc2, hval2, hne2⟩ := ih (m.setCell a b) (a + 1) (Memory.setCell_wf m a b hw hlt)
        (by simp only [Memory.setCell_capacity]; omega) fun x hx => hv x (by simp [hx])
      refine ⟨m2, by rw [Memory.writeAll, h1]; exact_mod_cast h2, hw2, hc2, fun k hk => ?_, fun k hk => ?_⟩
      · cases k with
        | zero =>
          rw [Nat.add_zero, hne2 a (by omega), Memory.cell_setCell_same m a b hw, List.getElem_cons_zero, hb]
        | succ k =>
          have := hval2 k (by simpa using hk)
          rw [show a + (k + 1) = a + 1 + k by omega, List.getElem_cons_succ, this]
      · simp only [List.length_cons] at hk
        rw [hne2 k (by omega), Memory.cell_setCell_ne m a k b (by omega)]
    · omega
    · omega

/-- A sequence of writes stops at its first value that is no byte value, with the values before it written. -/
theorem Memory.writeAll_of_bad (m : Memory) (a : Nat) (vs : List Int) (hw : m.wf) (hl : a + vs.length ≤ m.capacity)
    (n : Nat) (hn : n < vs.length) (hv : ∀ k (hk : k < n), 0 ≤ vs[k] ∧ vs[k] < 256) (hb : vs[n] < 0 ∨ 256 ≤ vs[n]) :
    ∃ m', m.writeAll a vs = (m', some (.valueRange vs[n])) ∧ m'.capacity = m.capacity ∧
      (∀ k (hk : k < n), ((m'.cell (a + k)).toNat : Int) = vs[k]) ∧ ∀ k, k < a ∨ a + n ≤ k → m'.cell k = m.cell k := by
  induction vs generalizing m a n with
  | nil => exact absurd hn (Nat.not_lt_zero n)
  | cons v vs ih =>
    simp only [List.length_cons] at hl hn
    rcases m.write_cases a v with ⟨a', b, ha, hlt, hv', h1⟩ | ⟨h, -⟩ | ⟨-, hbad, h1⟩
    · obtain rfl : a = a' := Int.ofNat_inj.mp ha
      have := b.isLt
      obtain ⟨n, rfl⟩ : ∃ n', n = n' + 1 := by
        cases n with
        | zero => simp only [List.getElem_cons_zero] at hb; omega
        | succ n => exact ⟨n, rfl⟩
      obtain ⟨m2, h2, hc2, hval2, hne2⟩ := ih (m.setCell a b) (a + 1) (Memory.setCell_wf m a b hw hlt)
        (by simp only [Memory.setCell_capacity]; omega) n (by omega)
        (fun k hk => by simpa using hv (k + 1) (by omega)) (by simpa using hb)
      refine ⟨m2, by rw [Memory.writeAll, h1]; simpa using h2, hc2, fun k hk => ?_, fun k hk => ?_⟩
      · cases k with
        | zero =>
          rw [Nat.add_zero, hne2 a (by omega), Memory.cell_setCell_same m a b hw, List.getElem_cons_zero, hv']
        | succ k =>
          have := hval2 k (by simpa using hk)
          rw [show a + (k + 1) = a + 1 + k by omega, List.getElem_cons_succ, this]
      · rw [hne2 k (by omega), Memory.cell_setCell_ne m a k b (by omega)]
    · omega
    · obtain rfl : n = 0 := by
        by_contra hne
        have := hv 0 (by omega)
        simp only [List.getElem_cons_zero] at this
        omega
      exact ⟨m, by rw [Memory.writeAll, h1]; rfl, rfl, by omega, fun _ _ => rfl⟩

/-- Placing bytes keeps the capacity. -/
theorem Memory.placeBytes_capacity (m : Memory) (a : Nat) (bs : List Byte) : (m.placeBytes a bs).capacity = m.capacity := by
  induction bs generalizing m a with
  | nil => rfl
  | cons b bs ih => unfold Memory.placeBytes; rw [ih]; split <;> rfl

/-- Placing bytes keeps the canonical form. -/
theorem Memory.placeBytes_wf (m : Memory) (a : Nat) (bs : List Byte) (h : m.wf) : (m.placeBytes a bs).wf := by
  induction bs generalizing m a with
  | nil => exact h
  | cons b bs ih =>
    unfold Memory.placeBytes
    refine ih _ _ ?_
    split
    · exact Memory.setCell_wf m a b h ‹_›
    · exact h

/-- Bytes placed inside the capacity are read back, and no other cell changes. -/
theorem Memory.placeBytes_cell (m : Memory) (a : Nat) (bs : List Byte) (hw : m.wf) (hl : a + bs.length ≤ m.capacity) :
    (∀ k (hk : k < bs.length), (m.placeBytes a bs).cell (a + k) = bs[k]) ∧
      ∀ k, k < a ∨ a + bs.length ≤ k → (m.placeBytes a bs).cell k = m.cell k := by
  induction bs generalizing m a with
  | nil => exact ⟨fun k hk => absurd hk (Nat.not_lt_zero k), fun _ _ => rfl⟩
  | cons b bs ih =>
    simp only [List.length_cons] at hl ⊢
    have ha : a < m.capacity := by omega
    obtain ⟨h1, h2⟩ := ih (m.setCell a b) (a + 1) (Memory.setCell_wf m a b hw ha)
      (by simp only [Memory.setCell_capacity]; omega)
    simp only [Memory.placeBytes, if_pos ha]
    refine ⟨fun k hk => ?_, fun k hk => ?_⟩
    · cases k with
      | zero => exact (h2 a (by omega)).trans (Memory.cell_setCell_same m a b hw)
      | succ k => rw [show a + (k + 1) = a + 1 + k by omega, h1 k (by omega), List.getElem_cons_succ]
    · rw [h2 k (by omega), Memory.cell_setCell_ne m a k b (by omega)]

/-- The next byte of a window of memory. -/
theorem Memory.bytesFrom_succ (m : Memory) (a n : Nat) (h : a < m.capacity) :
    m.bytesFrom a (n + 1) = m.cell a :: m.bytesFrom (a + 1) n := by simp [Memory.bytesFrom, h]

/-- A window that begins at the top of memory is empty. -/
theorem Memory.bytesFrom_top (m : Memory) (a n : Nat) (h : m.capacity ≤ a) : m.bytesFrom a n = [] := by
  cases n <;> simp [Memory.bytesFrom]; omega

/-- A window that holds given bytes is those bytes and what follows them. -/
theorem Memory.bytesFrom_of_cells (m : Memory) (a n : Nat) (bs : List Byte) (hl : a + bs.length ≤ m.capacity)
    (hn : bs.length ≤ n) (hb : ∀ k (hk : k < bs.length), m.cell (a + k) = bs[k]) :
    m.bytesFrom a n = bs ++ m.bytesFrom (a + bs.length) (n - bs.length) := by
  induction bs generalizing a n with
  | nil => rfl
  | cons b bs ih =>
    simp only [List.length_cons] at hl hn
    obtain ⟨n, rfl⟩ : ∃ n', n = n' + 1 := ⟨n - 1, by omega⟩
    have h0 : m.cell a = b := hb 0 (by simp)
    rw [Memory.bytesFrom_succ m a n (by omega), h0, ih (a + 1) n (by omega) (by omega) fun k hk => by
      rw [show a + 1 + k = a + (k + 1) by omega, hb (k + 1) (by simpa using hk), List.getElem_cons_succ]]
    rw [List.length_cons, show a + (bs.length + 1) = a + 1 + bs.length by omega,
      show n + 1 - (bs.length + 1) = n - bs.length by omega]
    rfl

end Sys2Proof.Machine
end

