-- ==== Sys2Proof/Laws/Exec.lean ====
section
/-! SUPPORT. What the operand forms, the shared shapes and each meaning can do. `exec_cases` says it once for all instructions:
a next state that is the effect of the instruction, or the state with an error latched. -/

namespace Sys2Proof.Machine

/-! ### Operand forms -/

/-- An index that exists is accepted. -/
theorem regIndex_of_lt (i : Byte) (h : i.toNat < Config.nreg) : regIndex i = .ok ⟨i.toNat, h⟩ := by
  simp only [regIndex, dif_pos h]

/-- An index that does not exist is an error. -/
theorem regIndex_of_ge (i : Byte) (h : Config.nreg ≤ i.toNat) : regIndex i = .error (.registerIndex i) := by
  simp only [regIndex, dif_neg (Nat.not_lt.mpr h)]

/-- All a register index operand can answer. -/
theorem regIndex_cases (i : Byte) :
    (∃ h : i.toNat < Config.nreg, regIndex i = .ok ⟨i.toNat, h⟩) ∨
      (Config.nreg ≤ i.toNat ∧ regIndex i = .error (.registerIndex i)) := by
  rcases Nat.lt_or_ge i.toNat Config.nreg with h | h
  · exact .inl ⟨h, regIndex_of_lt i h⟩
  · exact .inr ⟨h, regIndex_of_ge i h⟩

/-- A divisor that is not 0 passes the check. -/
theorem checkDivisor_of_ne (f : Word → Word → Word) (x y : Word) (h : y ≠ 0) : checkDivisor f x y = .ok (f x y) := by
  simp only [checkDivisor, if_neg h]

/-- A divisor of 0 is an error. -/
@[simp] theorem checkDivisor_zero (f : Word → Word → Word) (x : Word) : checkDivisor f x 0 = .error .divisionByZero := rfl

/-! ### Except and settle -/

@[simp] theorem except_bind_ok {ε α β : Type} (a : α) (f : α → Except ε β) : (Except.ok a >>= f) = f a := rfl

@[simp] theorem except_bind_error {ε α β : Type} (e : ε) (f : α → Except ε β) :
    ((Except.error e : Except ε α) >>= f) = .error e := rfl

@[simp] theorem except_pure {ε α : Type} (a : α) : (pure a : Except ε α) = .ok a := rfl

@[simp] theorem settle_ok (s t : State) : settle s (.ok t) = .next t := rfl

@[simp] theorem settle_error (s : State) (e : MachineError) : settle s (.error e) = .next (s.takeError e) := rfl

/-! ### The shared shapes -/

/-- The five binary instructions on indices that exist: the first operand's register takes the result. -/
theorem binaryOp_of_lt (f : Word → Word → Except MachineError Word) (a b : Byte) (s : State)
    (ha : a.toNat < Config.nreg) (hb : b.toNat < Config.nreg) :
    binaryOp f a b s = (f (s.reg ⟨a.toNat, ha⟩) (s.reg ⟨b.toNat, hb⟩)).map (s.setReg ⟨a.toNat, ha⟩) := by
  simp only [binaryOp, regIndex_of_lt a ha, regIndex_of_lt b hb, except_bind_ok]
  cases f (s.reg ⟨a.toNat, ha⟩) (s.reg ⟨b.toNat, hb⟩) <;> rfl

/-- The first operand's index is checked first. -/
theorem binaryOp_of_first_ge (f : Word → Word → Except MachineError Word) (a b : Byte) (s : State)
    (ha : Config.nreg ≤ a.toNat) : binaryOp f a b s = .error (.registerIndex a) := by
  simp only [binaryOp, regIndex_of_ge a ha, except_bind_error]

/-- Then the second operand's. -/
theorem binaryOp_of_second_ge (f : Word → Word → Except MachineError Word) (a b : Byte) (s : State)
    (ha : a.toNat < Config.nreg) (hb : Config.nreg ≤ b.toNat) : binaryOp f a b s = .error (.registerIndex b) := by
  simp only [binaryOp, regIndex_of_lt a ha, regIndex_of_ge b hb, except_bind_ok, except_bind_error]

/-- NOT's shape on an index that exists. -/
theorem unaryOp_of_lt (f : Word → Word) (a : Byte) (s : State) (ha : a.toNat < Config.nreg) :
    unaryOp f a s = .ok (s.setReg ⟨a.toNat, ha⟩ (f (s.reg ⟨a.toNat, ha⟩))) := by
  simp only [unaryOp, regIndex_of_lt a ha, except_bind_ok, except_pure]

/-- NOT's shape on an index that does not exist. -/
theorem unaryOp_of_ge (f : Word → Word) (a : Byte) (s : State) (ha : Config.nreg ≤ a.toNat) :
    unaryOp f a s = .error (.registerIndex a) := by
  simp only [unaryOp, regIndex_of_ge a ha, except_bind_error]

/-- All a binary instruction can do: write the first operand's register, or report an error a run can raise. -/
theorem binaryOp_cases (f : Word → Word → Except MachineError Word) (a b : Byte) (s : State)
    (hf : ∀ x y e, f x y = .error e → e = .divisionByZero) :
    (∃ (ha : a.toNat < Config.nreg) (v : Word), binaryOp f a b s = .ok (s.setReg ⟨a.toNat, ha⟩ v)) ∨
      ∃ e, (e = .registerIndex a ∨ e = .registerIndex b ∨ e = .divisionByZero) ∧ binaryOp f a b s = .error e := by
  rcases Nat.lt_or_ge a.toNat Config.nreg with ha | ha
  · rcases Nat.lt_or_ge b.toNat Config.nreg with hb | hb
    · rw [binaryOp_of_lt f a b s ha hb]
      cases h : f (s.reg ⟨a.toNat, ha⟩) (s.reg ⟨b.toNat, hb⟩) with
      | ok v => exact .inl ⟨ha, v, rfl⟩
      | error e => exact .inr ⟨e, by simp [hf _ _ _ h], rfl⟩
    · exact .inr ⟨_, by simp, binaryOp_of_second_ge f a b s ha hb⟩
  · exact .inr ⟨_, by simp, binaryOp_of_first_ge f a b s ha⟩

/-! ### All instructions at once -/

/-- The register an instruction writes when it completes, by its operand byte (10_state.md R21). -/
def destByte : Instr → Option Byte
  | .load r _ | .loadImm r _ | .mov r _ | .add r _ | .sub r _ | .mul r _ | .div r _ | .mod r _ | .not r => some r
  | .store _ _ | .nop | .halt => none

/-- An instruction that writes a register is not STORE, NOP or HALT, by its opcode byte (30_encoding.md R64). -/
theorem destByte_opcode {i : Instr} {r : Byte} (h : destByte i = some r) :
    i.opcode.byte ≠ 0x04 ∧ i.opcode.byte ≠ 0xFE ∧ i.opcode.byte ≠ 0xFF := by
  cases i <;> cases h <;> simp only [Instr.opcode] <;> decide

/-- The effect of an instruction that completes (40_execution_loop.md R86): one register, one cell, the halted flag, or
nothing. -/
inductive Effect : Instr → State → State → Prop where
  | register (i : Instr) (s : State) (r : Byte) (h : r.toNat < Config.nreg) (v : Word) (hd : destByte i = some r) :
      Effect i s (s.setReg ⟨r.toNat, h⟩ v)
  | cell (r a : Byte) (s : State) (h : r.toNat < Config.nreg) (ha : a.toNat < s.mem.capacity) (b : Byte)
      (hb : (s.reg ⟨r.toNat, h⟩).toNat = b.toNat) : Effect (.store r a) s (s.setMem (s.mem.setCell a.toNat b))
  | nothing (s : State) : Effect .nop s s
  | halted (s : State) : Effect .halt s (s.setHalted true)

/-- What exec can do, said once: an effect, or an error a run can raise, taken in the state as it was. -/
theorem exec_cases (i : Instr) (s : State) :
    (∃ t, exec i s = .next t ∧ Effect i s t) ∨
      ∃ e, exec i s = .next (s.takeError e) ∧ e.raisedByRun := by
  have bin (i : Instr) (f : Word → Word → Except MachineError Word) (a b : Byte) (hd : destByte i = some a)
      (hf : ∀ x y e, f x y = .error e → e = .divisionByZero) (he : exec i s = settle s (binaryOp f a b s)) :
      (∃ t, exec i s = .next t ∧ Effect i s t) ∨
      ∃ e, exec i s = .next (s.takeError e) ∧ e.raisedByRun := by
    rcases binaryOp_cases f a b s hf with ⟨ha, v, h⟩ | ⟨e, hk, h⟩
    · exact .inl ⟨_, by rw [he, h, settle_ok], .register i s a ha v hd⟩
    · refine .inr ⟨e, by rw [he, h, settle_error], ?_⟩
      rcases hk with rfl | rfl | rfl <;> trivial
  have ok (g : Word → Word → Word) (x y : Word) (e : MachineError)
      (h : (Except.ok (g x y) : Except MachineError Word) = .error e) : e = .divisionByZero := by cases h
  have chk (g : Word → Word → Word) (x y : Word) (e : MachineError) (h : checkDivisor g x y = .error e) :
      e = .divisionByZero := by
    unfold checkDivisor at h
    split at h
    · injection h with h; exact h.symm
    · cases h
  cases i with
  | load r a =>
    rcases regIndex_cases r with ⟨hr, h⟩ | ⟨hr, h⟩
    · rcases s.mem.read_cases (address a) with ⟨n, h1, h2, h3⟩ | ⟨-, h3⟩
      · exact .inl ⟨_, by simp [exec, execLoad, h, h3]; rfl, .register _ s r hr _ rfl⟩
      · exact .inr ⟨_, by simp [exec, execLoad, h, h3]; rfl, by trivial⟩
    · exact .inr ⟨_, by simp [exec, execLoad, h]; rfl, by trivial⟩
  | loadImm r v =>
    rcases regIndex_cases r with ⟨hr, h⟩ | ⟨hr, h⟩
    · exact .inl ⟨_, by simp [exec, execLoadImm, h]; rfl, .register _ s r hr _ rfl⟩
    · exact .inr ⟨_, by simp [exec, execLoadImm, h]; rfl, by trivial⟩
  | mov d r =>
    rcases regIndex_cases d with ⟨hd, h⟩ | ⟨hd, h⟩
    · rcases regIndex_cases r with ⟨hr, h'⟩ | ⟨hr, h'⟩
      · exact .inl ⟨_, by simp [exec, execMov, h, h']; rfl, .register _ s d hd _ rfl⟩
      · exact .inr ⟨_, by simp [exec, execMov, h, h']; rfl, by trivial⟩
    · exact .inr ⟨_, by simp [exec, execMov, h]; rfl, by trivial⟩
  | store r a =>
    rcases regIndex_cases r with ⟨hr, h⟩ | ⟨hr, h⟩
    · rcases s.mem.write_cases (address a) (storeValue (s.reg ⟨r.toNat, hr⟩)) with
        ⟨n, b, h1, h2, h3, h4⟩ | ⟨-, h4⟩ | ⟨-, -, h4⟩
      · have hn : a.toNat = n := Int.ofNat_inj.mp h1
        refine .inl ⟨s.setMem (s.mem.setCell a.toNat b), by simp [exec, execStore, h, h4, hn], ?_⟩
        exact .cell r a s hr (by omega) b (Int.ofNat_inj.mp h3)
      · exact .inr ⟨_, by simp [exec, execStore, h, h4]; rfl, by trivial⟩
      · exact .inr ⟨_, by simp [exec, execStore, h, h4]; rfl, by trivial⟩
    · exact .inr ⟨_, by simp [exec, execStore, h]; rfl, by trivial⟩
  | add a b => exact bin _ _ a b rfl (ok _) rfl
  | sub a b => exact bin _ _ a b rfl (ok _) rfl
  | mul a b => exact bin _ _ a b rfl (ok _) rfl
  | div a b => exact bin _ _ a b rfl (chk _) rfl
  | mod a b => exact bin _ _ a b rfl (chk _) rfl
  | not a =>
    rcases Nat.lt_or_ge a.toNat Config.nreg with ha | ha
    · exact .inl ⟨_, by simp [exec, execNot, unaryOp_of_lt notWord a s ha]; rfl, .register _ s a ha _ rfl⟩
    · exact .inr ⟨_, by simp [exec, execNot, unaryOp_of_ge notWord a s ha]; rfl, by trivial⟩
  | nop => exact .inl ⟨s, rfl, .nothing s⟩
  | halt => exact .inl ⟨_, rfl, .halted s⟩

end Sys2Proof.Machine
end

