-- ==== Sys2Proof/Laws/HostOps.lean ====
section
/-! SUPPORT. What the host's writing operations can do to a state: another memory of the same capacity and, for a whole load, a
cleared `pc`. -/

namespace Sys2Proof.Machine

/-- All a host write can do (70_reset_and_hazards.md R193). -/
theorem hostWrite_cases (addr v : Int) (s : State) :
    (∃ m, s.mem.write addr v = .ok m ∧ hostWrite addr v s = (.done, s.setMem m)) ∨
      ∃ e, s.mem.write addr v = .error e ∧ hostWrite addr v s = (.failed e, s) := by
  cases h : s.mem.write addr v with
  | ok m => exact .inl ⟨m, rfl, by simp only [hostWrite, h]⟩
  | error e => exact .inr ⟨e, rfl, by simp only [hostWrite, h]⟩

/-- All a bulk load can do (20_memory.md R44): the memory becomes what the sequence of writes leaves. -/
theorem hostBulkLoad_snd (addr : Int) (vs : List Int) (s : State) :
    (hostBulkLoad addr vs s).2 = s.setMem (s.mem.writeAll addr vs).1 := by
  unfold hostBulkLoad
  split <;> rename_i h <;> rw [h]

/-- All `loadProgram` can do (70_reset_and_hazards.md R194). -/
theorem loadProgram_cases (bytes : List Int) (s : State) :
    (s.mem.capacity < bytes.length ∧ loadProgram bytes s = (.failed (.programTooLarge bytes.length), s)) ∨
      (bytes.length ≤ s.mem.capacity ∧ ∃ m, s.mem.writeAll 0 bytes = (m, none) ∧
        loadProgram bytes s = (.done, (s.setMem m).setPc 0)) ∨
      (bytes.length ≤ s.mem.capacity ∧ ∃ m e, s.mem.writeAll 0 bytes = (m, some e) ∧
        loadProgram bytes s = (.failed e, s.setMem m)) := by
  rcases Nat.lt_or_ge s.mem.capacity bytes.length with h | h
  · exact .inl ⟨h, by simp only [loadProgram, if_pos h]⟩
  · cases hw : s.mem.writeAll 0 bytes with
    | mk m o =>
      cases o with
      | none => exact .inr (.inl ⟨h, m, rfl, by simp only [loadProgram, if_neg (Nat.not_lt.mpr h), hw]⟩)
      | some e => exact .inr (.inr ⟨h, m, e, rfl, by simp only [loadProgram, if_neg (Nat.not_lt.mpr h), hw]⟩)

/-- Construction answers a machine exactly for a positive size (20_memory.md R41). -/
theorem construct_cases (size : Int) :
    (1 ≤ size ∧ construct size = .ok (State.ofCapacity size.toNat)) ∨
      (size < 1 ∧ construct size = .error (.invalidSize size)) := by
  rcases lt_or_ge size 1 with h | h
  · exact .inr ⟨h, by simp only [construct, if_neg (Int.not_le.mpr h)]⟩
  · exact .inl ⟨h, by simp only [construct, if_pos h]⟩

end Sys2Proof.Machine
end

