-- ==== Sys2Proof/Laws/PerInstr.lean ====
section
/-! SUPPORT. The per-instruction law family RoundTrip: an instruction's encoding, alone, decodes to it and is as long as its format
says (30_encoding.md R60, R63). -/

namespace Sys2Proof.Laws.RoundTrip

/-- The encoding of the instruction decodes to it with no byte left, and has its format's length. -/
def Statement (i : Instr) : Prop := decode (encode i) = .ok (i, []) ∧ (encode i).length = i.length

theorem load (reg addr : Byte) : Statement (.load reg addr) := ⟨rfl, rfl⟩

theorem loadImm (reg value : Byte) : Statement (.loadImm reg value) := ⟨rfl, rfl⟩

theorem mov (destReg srcReg : Byte) : Statement (.mov destReg srcReg) := ⟨rfl, rfl⟩

theorem store (reg addr : Byte) : Statement (.store reg addr) := ⟨rfl, rfl⟩

theorem add (regA regB : Byte) : Statement (.add regA regB) := ⟨rfl, rfl⟩

theorem sub (regA regB : Byte) : Statement (.sub regA regB) := ⟨rfl, rfl⟩

theorem mul (regA regB : Byte) : Statement (.mul regA regB) := ⟨rfl, rfl⟩

theorem div (regA regB : Byte) : Statement (.div regA regB) := ⟨rfl, rfl⟩

theorem mod (regA regB : Byte) : Statement (.mod regA regB) := ⟨rfl, rfl⟩

theorem not (regA : Byte) : Statement (.not regA) := ⟨rfl, rfl⟩

theorem nop : Statement .nop := ⟨rfl, rfl⟩

theorem halt : Statement .halt := ⟨rfl, rfl⟩

end Sys2Proof.Laws.RoundTrip
end

