-- ==== Sys2Proof/Laws/Step.lean ====
section
/-! SUPPORT. What fetch, operand fetch and the step can do, each said once. -/

namespace Sys2Proof.Machine

/-! ### Fetch -/

/-- Inside the capacity a fetch gives the cell at `pc` and increments (40_execution_loop.md R80). -/
theorem fetch_of_lt (s : State) (h : s.pc < s.mem.capacity) : fetch s = .ok (s.mem.cell s.pc) (s.setPc (s.pc + 1)) := by
  simp only [fetch, Memory.read_of_lt s.mem s.pc h]

/-- At the top of memory a fetch fails and does not increment (40_execution_loop.md R80, R81). -/
theorem fetch_of_ge (s : State) (h : s.mem.capacity ≤ s.pc) : fetch s = .error (.outOfBounds s.pc) s := by
  simp only [fetch, Memory.read_of_ge s.mem s.pc h]

@[simp] theorem Fetched.bind_ok {α β : Type} (a : α) (s : State) (f : α → State → Fetched β) :
    (Fetched.ok a s).bind f = f a s := rfl

@[simp] theorem Fetched.bind_error {α β : Type} (e : MachineError) (s : State) (f : α → State → Fetched β) :
    (Fetched.error e s).bind f = .error e s := rfl

/-- Setting `pc` twice is setting it once. -/
@[simp] theorem State.setPc_setPc (s : State) (v w : Nat) : (s.setPc v).setPc w = s.setPc w := rfl

/-- All a fetch of an instruction can do when an opcode can be fetched: give an instruction whose bytes lie below the
capacity, with `pc` after them; or an illegal opcode, `pc` one past it; or fail in an operand fetch, `pc` at the top. -/
theorem fetchInstr_cases (s : State) (h : s.pc < s.mem.capacity) :
    (∃ i, fetchInstr s = .ok i (s.setPc (s.pc + i.length)) ∧ s.pc + i.length ≤ s.mem.capacity ∧
        i.opcode.byte = s.mem.cell s.pc ∧
        ∀ k (hk : k < i.operands.length), i.operands[k] = s.mem.cell (s.pc + 1 + k)) ∨
      (fetchInstr s = .error (.unknownOpcode (s.mem.cell s.pc)) (s.setPc (s.pc + 1)) ∧
        Opcode.ofByte (s.mem.cell s.pc) = none) ∨
      (fetchInstr s = .error (.outOfBounds s.mem.capacity) (s.setPc s.mem.capacity) ∧
        ∃ o, Opcode.ofByte (s.mem.cell s.pc) = some o ∧ s.mem.capacity < s.pc + o.format.length) := by
  unfold fetchInstr
  rw [fetch_of_lt s h, Fetched.bind_ok]
  cases ho : Opcode.ofByte (s.mem.cell s.pc) with
  | none => exact .inr (.inl ⟨rfl, rfl⟩)
  | some o =>
    have hb := Opcode.byte_of_ofByte ho
    have hl {i : Instr} (hi : i.opcode = o) : o.format.length = i.length := by rw [Instr.length, hi]
    cases hs : o.shape with
    | noOperand i =>
      obtain ⟨h1, h2, h3⟩ := Opcode.shape_noOperand hs
      exact .inl ⟨i, by simp [fetchOperands, hs, h3], by omega, by rw [h1, hb], by simp [h2]⟩
    | oneOperand mk =>
      have hm := Opcode.shape_oneOperand hs
      rcases Nat.lt_or_ge (s.pc + 1) s.mem.capacity with h1 | h1
      · refine .inl ⟨mk (s.mem.cell (s.pc + 1)), ?_, ?_, by rw [(hm _).1, hb], ?_⟩
        · simp only [fetchOperands, hs, fetch_of_lt (s.setPc (s.pc + 1)) h1, Fetched.bind_ok, (hm _).2.2]; rfl
        · rw [(hm _).2.2]; omega
        · intro k hk
          simp only [(hm _).2.1] at hk ⊢
          obtain rfl : k = 0 := by simpa using hk
          rfl
      · refine .inr (.inr ⟨?_, o, rfl, ?_⟩)
        · have : s.mem.capacity = s.pc + 1 := by omega
          simp [fetchOperands, hs, fetch_of_ge (s.setPc (s.pc + 1)) h1, this]
        · rw [hl (hm 0).1, (hm 0).2.2]; omega
    | twoOperands mk =>
      have hm := Opcode.shape_twoOperands hs
      rcases Nat.lt_or_ge (s.pc + 1) s.mem.capacity with h1 | h1
      · rcases Nat.lt_or_ge (s.pc + 2) s.mem.capacity with h2 | h2
        · refine .inl ⟨mk (s.mem.cell (s.pc + 1)) (s.mem.cell (s.pc + 2)), ?_, ?_, by rw [(hm _ _).1, hb], ?_⟩
          · simp only [fetchOperands, hs, fetch_of_lt (s.setPc (s.pc + 1)) h1, Fetched.bind_ok, State.setPc_pc,
              State.setPc_setPc, fetch_of_lt (s.setPc (s.pc + 1 + 1)) h2, (hm _ _).2.2]
            rfl
          · rw [(hm _ _).2.2]; omega
          · intro k hk
            simp only [(hm _ _).2.1] at hk ⊢
            match k, hk with
            | 0, _ => rfl
            | 1, _ => rfl
        · refine .inr (.inr ⟨?_, o, rfl, ?_⟩)
          · have hc : s.mem.capacity = s.pc + 1 + 1 := by omega
            simp only [fetchOperands, hs, fetch_of_lt (s.setPc (s.pc + 1)) h1, Fetched.bind_ok, State.setPc_pc,
              State.setPc_setPc, fetch_of_ge (s.setPc (s.pc + 1 + 1)) h2, Fetched.bind_error, hc]
          · rw [hl (hm 0 0).1, (hm 0 0).2.2]; omega
      · refine .inr (.inr ⟨?_, o, rfl, ?_⟩)
        · have : s.mem.capacity = s.pc + 1 := by omega
          simp [fetchOperands, hs, fetch_of_ge (s.setPc (s.pc + 1)) h1, this]
        · rw [hl (hm 0 0).1, (hm 0 0).2.2]; omega

/-- Fetching an instruction is decoding the (at most three) bytes at `pc`, with `pc` moved past the bytes consumed: the byte
decoder and the engine's fetch agree, where they answer and where they fail (40_execution_loop.md R81 to R85). -/
theorem fetchInstr_of_decode (s : State) (h : s.pc < s.mem.capacity) :
    match decode (s.mem.bytesFrom s.pc 3) with
    | .ok (i, _) => fetchInstr s = .ok i (s.setPc (s.pc + i.length))
    | .error (.unknownOpcode op) => fetchInstr s = .error (.unknownOpcode op) (s.setPc (s.pc + 1))
    | .error (.missingOperand _) => fetchInstr s = .error (.outOfBounds s.mem.capacity) (s.setPc s.mem.capacity)
    | .error .noOpcode => False := by
  rw [Memory.bytesFrom_succ s.mem s.pc 2 h]
  simp only [decode]
  unfold fetchInstr
  rw [fetch_of_lt s h, Fetched.bind_ok]
  cases ho : Opcode.ofByte (s.mem.cell s.pc) with
  | none => rfl
  | some o =>
    simp only
    cases hs : o.shape with
    | noOperand i => simp [fetchOperands, (Opcode.shape_noOperand hs).2.2]
    | oneOperand mk =>
      simp only [fetchOperands]
      rcases Nat.lt_or_ge (s.pc + 1) s.mem.capacity with h1 | h1
      · rw [Memory.bytesFrom_succ s.mem _ _ h1, fetch_of_lt (s.setPc (s.pc + 1)) h1]
        simp [(Opcode.shape_oneOperand hs _).2.2]
      · have hc : s.mem.capacity = s.pc + 1 := by omega
        rw [Memory.bytesFrom_top s.mem _ _ h1, fetch_of_ge (s.setPc (s.pc + 1)) h1]
        simp [hc]
    | twoOperands mk =>
      simp only [fetchOperands]
      rcases Nat.lt_or_ge (s.pc + 1) s.mem.capacity with h1 | h1
      · rw [Memory.bytesFrom_succ s.mem _ _ h1, fetch_of_lt (s.setPc (s.pc + 1)) h1, Fetched.bind_ok]
        simp only [State.setPc_setPc, State.setPc_pc]
        rcases Nat.lt_or_ge (s.pc + 1 + 1) s.mem.capacity with h2 | h2
        · rw [Memory.bytesFrom_succ s.mem _ _ h2, fetch_of_lt (s.setPc (s.pc + 1 + 1)) h2]
          simp [(Opcode.shape_twoOperands hs _ _).2.2]
        · have hc : s.mem.capacity = s.pc + 1 + 1 := by omega
          rw [Memory.bytesFrom_top s.mem _ _ h2, fetch_of_ge (s.setPc (s.pc + 1 + 1)) h2]
          simp [hc]
      · have hc : s.mem.capacity = s.pc + 1 := by omega
        rw [Memory.bytesFrom_top s.mem _ _ h1, fetch_of_ge (s.setPc (s.pc + 1)) h1]
        simp [hc]

/-! ### The stop tests -/

/-- A step is enabled exactly when nothing is latched, the flag is clear and an opcode can be fetched. -/
theorem stopReason_eq_none {s : State} :
    stopReason s = none ↔ s.fault = none ∧ s.halted = false ∧ s.pc < s.mem.capacity := by
  unfold stopReason
  cases s.fault <;> cases s.halted <;> simp

/-! ### The step -/

/-- Where no step is enabled, `step` reports why. -/
theorem step_of_stop {s : State} {r : Fault} (h : stopReason s = some r) : step s = .fault r := by
  simp only [step, h]

/-- Only HALT is encoded by `0xFF` (30_encoding.md R64). -/
theorem Opcode.eq_halt_of_byte {o : Opcode} (h : o.byte = 0xFF) : o = .halt := by
  revert h
  cases o <;> decide

/-- All a step can do where one is enabled: run the instruction fetched to its effect, or take an error a run can raise,
with `pc` after the bytes fetched and nothing else changed. -/
theorem step_cases (s : State) (h : stopReason s = none) :
    (∃ i t, fetchInstr s = .ok i (s.setPc (s.pc + i.length)) ∧ s.pc + i.length ≤ s.mem.capacity ∧
        i.opcode.byte = s.mem.cell s.pc ∧
        (∀ k (hk : k < i.operands.length), i.operands[k] = s.mem.cell (s.pc + 1 + k)) ∧
        step s = .next t ∧ Effect i (s.setPc (s.pc + i.length)) t) ∨
      (∃ p e, step s = .next ((s.setPc p).takeError e) ∧ s.pc < p ∧ p ≤ s.mem.capacity ∧ p ≤ s.pc + 3 ∧
        s.mem.cell s.pc ≠ 0xFF ∧ e.raisedByRun) := by
  have hpc := (stopReason_eq_none.mp h).2.2
  rcases fetchInstr_cases s hpc with ⟨i, hf, hle, hb, hops⟩ | ⟨hf, ho⟩ | ⟨hf, o, ho, hlt⟩
  · have hstep : step s = exec i (s.setPc (s.pc + i.length)) := by simp only [step, h, hf]
    rcases exec_cases i (s.setPc (s.pc + i.length)) with ⟨t, ht, he⟩ | ⟨e, he, hk⟩
    · exact .inl ⟨i, t, hf, hle, hb, hops, hstep.trans ht, he⟩
    · have h1 := i.length_pos
      have h3 := i.length_le
      refine .inr ⟨_, e, hstep.trans he, by omega, hle, by omega, fun hff => ?_, hk⟩
      have hi := Opcode.eq_halt_of_byte (hb.trans hff)
      cases i <;> cases hi
      have hh : true = s.halted := congrArg State.halted (Host.Outcome.next.inj he)
      rw [(stopReason_eq_none.mp h).2.1] at hh
      cases hh
  · have hstep : step s = .next ((s.setPc (s.pc + 1)).takeError (.unknownOpcode (s.mem.cell s.pc))) := by
      simp only [step, h, hf]
    refine .inr ⟨_, _, hstep, by omega, hpc, by omega, fun hff => ?_, trivial⟩
    exact Opcode.ofByte_eq_none.mp ho .halt hff.symm
  · have hstep : step s = .next ((s.setPc s.mem.capacity).takeError (.outOfBounds s.mem.capacity)) := by
      simp only [step, h, hf]
    have h3 : o.format.length ≤ 3 := by cases o <;> decide
    refine .inr ⟨_, _, hstep, hpc, le_refl _, by omega, fun hff => ?_, trivial⟩
    have ho' := Opcode.eq_halt_of_byte ((Opcode.byte_of_ofByte ho).symm.trans hff)
    subst ho'
    have : Opcode.halt.format.length = 1 := rfl
    omega

/-- A step that answers a next state was enabled. -/
theorem stopReason_of_next {s t : State} (h : step s = .next t) : stopReason s = none := by
  cases hs : stopReason s with
  | none => rfl
  | some r => rw [step_of_stop hs] at h; cases h

/-- A step that answers a fault reports why no step is enabled: no instruction stops the machine otherwise. -/
theorem stopReason_of_fault {s : State} {r : Fault} (h : step s = .fault r) : stopReason s = some r := by
  cases hs : stopReason s with
  | none =>
    rcases step_cases s hs with ⟨_, t, -, -, -, -, ht, -⟩ | ⟨_, _, ht, -⟩ <;> rw [ht] at h <;> cases h
  | some r' => rw [step_of_stop hs] at h; cases h; rfl

/-- What `withFetchWord` is for: where the three bytes at `pc` exist, the very next step runs the instruction the decoder
reads from the table word (log entry 5). -/
theorem step_withFetchWord (s : State) (nbits w : Nat) (i : Instr) (hw : s.mem.wf) (hl : s.pc + 3 ≤ s.mem.capacity)
    (hd : decodeTableWord nbits w = some i) :
    step (s.withFetchWord nbits w) = exec i ((s.withFetchWord nbits w).setPc (s.pc + i.length)) := by
  have hcap : (s.withFetchWord nbits w).mem.capacity = s.mem.capacity := Memory.placeBytes_capacity _ _ _
  have hlen : (wordBytes nbits w).length = 3 := rfl
  have hwin : (s.withFetchWord nbits w).mem.bytesFrom s.pc 3 = wordBytes nbits w := by
    have := Memory.bytesFrom_of_cells (s.withFetchWord nbits w).mem s.pc 3 (wordBytes nbits w) (by rw [hcap, hlen]; exact hl)
      (by rw [hlen]) (Memory.placeBytes_cell s.mem s.pc _ hw (by rw [hlen]; exact hl)).1
    rw [this, hlen, Nat.sub_self]
    exact List.append_nil _
  have hen : stopReason (s.withFetchWord nbits w) = none :=
    stopReason_eq_none.mpr ⟨rfl, rfl, by rw [hcap]; show s.pc < _; omega⟩
  have hf := fetchInstr_of_decode (s.withFetchWord nbits w) (stopReason_eq_none.mp hen).2.2
  have hpc : (s.withFetchWord nbits w).pc = s.pc := rfl
  rw [hpc, hwin] at hf
  unfold decodeTableWord at hd
  cases hdec : decode (wordBytes nbits w) with
  | error e => rw [hdec] at hd; cases hd
  | ok r =>
    rw [hdec] at hd hf
    cases hd
    simp only [step, hen, hf]

end Sys2Proof.Machine
end

