-- ==== Sys2Proof/Laws/Run.lean ====
section
/-! SUPPORT. What one turn of the run loop does, and what a sequence of steps keeps. -/

namespace Sys2Proof.Machine

/-- A turn of the loop on a state that steps. -/
theorem runLoop_of_next {s t : State} (n : Nat) (h : step s = .next t) : runLoop (n + 1) s = runLoop n t := by
  rw [runLoop, h]

/-- A turn of the loop where no step is enabled: the outcome, and the state as it is. -/
theorem runLoop_of_stop {s : State} {r : Fault} (n : Nat) (h : stopReason s = some r) :
    runLoop (n + 1) s = some (RunOutcome.ofStop r, s) := by
  rw [runLoop, step_of_stop h]

/-- A step changes no capacity (20_memory.md R41). -/
theorem Effect.capacity {i : Instr} {s t : State} (h : Effect i s t) : t.mem.capacity = s.mem.capacity := by
  cases h <;> rfl

/-- An effect leaves `pc` where the fetch put it (10_state.md R23). -/
theorem Effect.pc {i : Instr} {s t : State} (h : Effect i s t) : t.pc = s.pc := by
  cases h <;> rfl

/-- An effect writes no latch (10_state.md R27). -/
theorem Effect.fault {i : Instr} {s t : State} (h : Effect i s t) : t.fault = s.fault := by
  cases h <;> rfl

/-- An effect keeps the memory's canonical form. -/
theorem Effect.mem_wf {i : Instr} {s t : State} (h : Effect i s t) (hw : s.mem.wf) : t.mem.wf := by
  cases h with
  | register => exact hw
  | cell r a _ hr ha b hb => exact Memory.setCell_wf _ _ _ hw ha
  | nothing => exact hw
  | halted => exact hw

end Sys2Proof.Machine
end

