-- ==== Sys2Proof/Tests/Slice0.lean ====
section
/-! SUPPORT. The model's own tests: decoding of words written out from 30_encoding.md, the checks of WellFormed, one or two single
steps per instruction with the results of spec/95_test_vectors.md, host operations, and a witness for the hypotheses of each
statement. -/

namespace Sys2Proof.Tests

open Sys2Proof.Machine

/-! ### Helpers -/

/-- A machine of that capacity, bytes placed from address 0. -/
def machine (capacity : Nat) (bytes : List Byte) : State :=
  let s := State.ofCapacity capacity
  s.setMem (s.mem.placeBytes 0 bytes)

/-- The next state, if the outcome is one. -/
def after : Host.Outcome State Fault Refusal → Option State
  | .next t => some t
  | .fault _ => none
  | .refused _ => none

/-- The stop an outcome reports, if it is one. -/
def stopOf : Host.Outcome State Fault Refusal → Option Fault
  | .fault r => some r
  | .next _ => none
  | .refused _ => none

/-- One register after a step. -/
def regAfter (s : State) (i : Fin Config.nreg) : Option Word := (after (step s)).map fun t => t.reg i

/-- The latch and `pc` after a step. -/
def faultAfter (s : State) : Option (Option MachineError × Nat) := (after (step s)).map fun t => (t.fault, t.pc)

/-! ### Decoding: words written out bit by bit from the encoding column of the opcode table (30_encoding.md R60, R64) -/

theorem test_decode_load : decode [0b00000001#8, 0b00000011#8, 0b00100000#8] = .ok (.load 3 0x20, []) := by decide
theorem test_decode_loadImm : decode [0b00000010#8, 0b00000111#8, 0b11111111#8] = .ok (.loadImm 7 0xFF, []) := by decide
theorem test_decode_mov : decode [0b00000011#8, 0b00000010#8, 0b00000001#8] = .ok (.mov 2 1, []) := by decide
theorem test_decode_store : decode [0b00000100#8, 0b00000000#8, 0b00010000#8] = .ok (.store 0 0x10, []) := by decide
theorem test_decode_add : decode [0b00010000#8, 0b00000000#8, 0b00000001#8] = .ok (.add 0 1, []) := by decide
theorem test_decode_sub : decode [0b00010001#8, 0b00000010#8, 0b00000011#8] = .ok (.sub 2 3, []) := by decide
theorem test_decode_mul : decode [0b00010010#8, 0b00000000#8, 0b00000001#8] = .ok (.mul 0 1, []) := by decide
theorem test_decode_div : decode [0b00010011#8, 0b00000000#8, 0b00000011#8] = .ok (.div 0 3, []) := by decide
theorem test_decode_mod : decode [0b00010100#8, 0b00000100#8, 0b00000011#8] = .ok (.mod 4 3, []) := by decide
theorem test_decode_not : decode [0b00100000#8, 0b00000100#8, 0xFF] = .ok (.not 4, [0xFF]) := by decide
theorem test_decode_nop : decode [0b11111110#8, 0x01] = .ok (.nop, [0x01]) := by decide
theorem test_decode_halt : decode [0b11111111#8] = .ok (.halt, []) := by decide
theorem test_decode_zero_is_illegal : decode [0x00, 0x00] = .error (.unknownOpcode 0x00) := by decide
theorem test_decode_short : decode [0x02, 0x00] = .error (.missingOperand 0x02) := by decide

/-- A table word has its first byte in its low bits: `01 03 20` is `0x200301`. -/
theorem test_table_word : decodeTableWord 24 0x200301 = some (.load 3 0x20) := by decide
theorem test_table_word_short : decodeTableWord 8 0x12 = some (.mul 0 0) := by decide
theorem test_table_word_illegal : decodeTableWord 8 0x05 = none := by decide

/-- The word is fetched and run by the very first step after reset: `LOAD_IMM r2, 10`. -/
theorem test_fetch_word_runs : regAfter (State.reset.withFetchWord 24 0x0A0202) 2 = some 10 := by decide

/-- 30_encoding.md R68: the notation and the bytes of `.byte 100` and `ADD r0, r1`. -/
theorem test_assemble : assemble [.instr (.add 0 1), .byte 100] = [0x10, 0x00, 0x01, 0x64] := by decide

/-! ### WellFormed: each check refuses a term -/

theorem test_wf_accepts : (Instr.load 7 15).wellFormed 16 = true := by decide
theorem test_wf_load_register : (Instr.load 8 0).wellFormed 16 = false := by decide
theorem test_wf_load_address : (Instr.load 0 16).wellFormed 16 = false := by decide
theorem test_wf_store_address : (Instr.store 0 16).wellFormed 16 = false := by decide
theorem test_wf_first_register : (Instr.mov 8 0).wellFormed 16 = false := by decide
theorem test_wf_second_register : (Instr.div 0 8).wellFormed 16 = false := by decide
theorem test_wf_not_register : (Instr.not 200).wellFormed 16 = false := by decide
theorem test_wf_program_length : programWellFormed 2 [1, 2, 3] = false := by decide
theorem test_wf_program_value : programWellFormed 4 [1, 256] = false := by decide
theorem test_wf_program_negative : programWellFormed 4 [-1] = false := by decide
theorem test_wf_config : configWellFormed Config.memSize Config.nreg Config.xlen = true := by decide
theorem test_wf_config_size : configWellFormed 0 8 32 = false := by decide
theorem test_wf_config_nreg : configWellFormed 16 257 32 = false := by decide
theorem test_wf_config_xlen : configWellFormed 16 8 8 = false := by decide

/-! ### Single steps, results from spec/95_test_vectors.md (the vector is named) -/

/-- V10. -/
theorem test_load : regAfter ((machine 64 [0x01, 3, 0x20]).setMem
    ((machine 64 [0x01, 3, 0x20]).mem.setCell 0x20 0xC8)) 3 = some 0x000000C8 := by decide
/-- V12: index before address. -/
theorem test_load_order : faultAfter (machine 16 [0x01, 8, 0x10]) = some (some (.registerIndex 8), 3) := by decide
/-- V13. -/
theorem test_loadImm : regAfter (machine 16 [0x02, 7, 0xFF]) 7 = some 0x000000FF := by decide
/-- P9: the second operand lies past the end. -/
theorem test_loadImm_past_end : faultAfter (machine 2 [0x02, 0]) = some (some (.outOfBounds 2), 2) := by decide
/-- V15. -/
theorem test_mov : regAfter ((machine 16 [0x03, 2, 1]).setReg 1 0xFFFFFFFF) 2 = some 0xFFFFFFFF := by decide
/-- V17. -/
theorem test_mov_second_index : faultAfter (machine 16 [0x03, 0, 0xC8]) = some (some (.registerIndex 200), 3) := by decide
/-- V19: the largest storable value, the last cell. -/
theorem test_store : (after (step ((machine 32 [0x04, 0, 0x1F]).setReg 0 0xFF))).map (fun t => t.mem.cell 0x1F) =
    some 0xFF := by decide
/-- V21: not truncated. -/
theorem test_store_value : faultAfter ((machine 32 [0x04, 0, 0x10]).setReg 0 0xFFFFFFFF) =
    some (some (.valueRange 0xFFFFFFFF), 3) := by decide
/-- V31. -/
theorem test_add : regAfter (((machine 16 [0x10, 0, 1]).setReg 0 0xFFFFFFFF).setReg 1 1) 0 = some 0 := by decide
/-- V61: the first operand's index is reported. -/
theorem test_add_order : faultAfter (machine 16 [0x10, 9, 8]) = some (some (.registerIndex 9), 3) := by decide
/-- V34. -/
theorem test_sub : regAfter (((machine 16 [0x11, 0, 1]).setReg 0 3).setReg 1 5) 0 = some 0xFFFFFFFE := by decide
/-- V41. -/
theorem test_mul : regAfter (((machine 16 [0x12, 0, 1]).setReg 0 0x80000000).setReg 1 0xFFFFFFFF) 0 =
    some 0x80000000 := by decide
/-- V44: -7 / 2 = -3. -/
theorem test_div : regAfter (((machine 16 [0x13, 0, 1]).setReg 0 0xFFFFFFF9).setReg 1 2) 0 = some 0xFFFFFFFD := by decide
/-- V61: the index before the divisor. -/
theorem test_div_order : faultAfter ((machine 16 [0x13, 0, 8]).setReg 0 5) = some (some (.registerIndex 8), 3) := by decide
/-- V53: 7 rem -2 = 1. -/
theorem test_mod : regAfter (((machine 16 [0x14, 0, 1]).setReg 0 7).setReg 1 0xFFFFFFFE) 0 = some 1 := by decide
/-- V58. -/
theorem test_mod_zero : faultAfter ((machine 16 [0x14, 0, 1]).setReg 0 5) = some (some .divisionByZero, 3) := by decide
/-- V72. -/
theorem test_not : regAfter ((machine 16 [0x20, 3]).setReg 3 0xFF) 3 = some 0xFFFFFF00 := by decide
/-- V3: the operand fetch past the end. -/
theorem test_not_past_end : faultAfter ((machine 2 [0xFE, 0x20]).setPc 1) = some (some (.outOfBounds 2), 2) := by decide
/-- V84. -/
theorem test_nop : faultAfter (machine 1 [0xFE]) = some (none, 1) := by decide
/-- V80. -/
theorem test_halt : (after (step (machine 4 [0xFF]))).map (fun t => (t.halted, t.pc)) = some (true, 1) := by decide
/-- V8. -/
theorem test_illegal : faultAfter (machine 1 [0xFD]) = some (some (.unknownOpcode 0xFD), 1) := by decide

/-! ### Stops, runs and host operations -/

/-- V4, V5: a halted machine, and one at the top of memory, take no step. -/
theorem test_halted_stops : stopOf (step ((machine 3 [0x02, 0, 7]).setHalted true)) = some .halted := by decide
theorem test_end_stops : stopOf (step ((machine 4 []).setPc 4)) = some .endOfMemory := by decide
/-- V1. -/
theorem test_run_end_of_memory : (run (machine 1 [0xFE])).map (fun r => (r.1, r.2.pc)) = some (.endOfMemory, 1) := by decide
/-- V6: run again after the fault. -/
theorem test_run_latched : (run ((machine 2 [0xAB, 0xFF]).takeError (.unknownOpcode 0xAB))).map (fun r => r.1) =
    some (.fault (.unknownOpcode 0xAB)) := by decide
/-- V90. -/
theorem test_loadProgram : ((loadProgram [0xFE, 0xFF] (machine 4 [9, 9, 9, 9])).2.mem.view) = [0xFE, 0xFF, 9, 9] := by decide
/-- S7. -/
theorem test_loadProgram_too_large : (loadProgram [1, 2, 3] (machine 2 [0x11, 0x22])).1 =
    .failed (.programTooLarge 3) := by decide
/-- V93, V94, S2. -/
theorem test_write_value : (hostOp (.write 0 256) (machine 4 [])).1 = .failed (.valueRange 256) := by decide
theorem test_write_address : (hostOp (.write 4 0) (machine 4 [])).1 = .failed (.outOfBounds 4) := by decide
theorem test_read_negative : (hostOp (.read (-1)) (machine 1 [])).1 = .failed (.outOfBounds (-1)) := by decide
/-- V95. -/
theorem test_construct_zero : construct 0 = .error (.invalidSize 0) := by rfl
theorem test_status : (hostOp .status ((machine 4 []).takeError (.registerIndex 8))).1 = .status ⟨false, 0, 7, some 8⟩ := by decide

/-! ### Witnesses: for each statement with hypotheses, concrete states and operands that meet them, clause by clause -/

theorem witness_LengthFollowsFromOpcodeByte :
    decode (0xFE :: []) = .ok (.nop, []) ∧ decode (0x20 :: [7]) = .ok (.not 7, []) ∧
      decode (0x14 :: [0, 255, 9]) = .ok (.mod 0 255, [9]) := by decide

theorem witness_IllegalOpcodeRaisesAndFetchesNoOperand :
    ∀ b ∈ ([0x00, 0x05, 0x0F, 0x15, 0x1F, 0x21, 0xFD] : List Byte),
      (machine 1 [b]).Enabled ∧ IllegalOpcode ((machine 1 [b]).mem.cell (machine 1 [b]).pc) := by decide

theorem witness_FetchReadsThenIncrements :
    ((machine 1 []).pc < (machine 1 []).mem.capacity) ∧ (machine 1 []).mem.capacity ≤ ((machine 1 []).setPc 1).pc := by
  decide

theorem witness_StepRunsDecodedInstruction :
    (machine 3 [0x01, 0, 2]).Enabled ∧ decode ((machine 3 [0x01, 0, 2]).mem.bytesFrom 0 3) = .ok (.load 0 2, []) := by decide

/-- Opcode at `MEMSIZE-1` with an operand, and at `MEMSIZE-2` with two. -/
theorem witness_OperandFetchPastEndOfMemory :
    (machine 1 [0x20]).Enabled ∧ Opcode.ofByte ((machine 1 [0x20]).mem.cell 0) = some .not ∧
      (machine 1 [0x20]).mem.capacity < 0 + Opcode.not.format.length ∧
      (machine 2 [0x02]).Enabled ∧ Opcode.ofByte ((machine 2 [0x02]).mem.cell 0) = some .loadImm ∧
      (machine 2 [0x02]).mem.capacity < 0 + Opcode.loadImm.format.length := by decide

/-- Steps of one, two and three bytes, the last ending at the top of memory: the hypothesis of the statements about every
step (EveryStepAdvancesPc, OnlyHaltSetsHalted, OnlyStoreWritesMemory, StepWritesAtMostOneRegister, RunIsStepThenRun,
CapacityIsFixedAtConstruction). -/
theorem witness_steps :
    (∃ t, step (machine 1 [0xFF]) = .next t) ∧ (∃ t, step (machine 4 [0x20, 7]) = .next t) ∧
      (∃ t, step ((machine 3 [0x04, 0, 2]).setReg 0 255) = .next t) ∧ ∃ t, step (machine 3 [0x01, 0, 2]) = .next t :=
  ⟨⟨_, rfl⟩, ⟨_, rfl⟩, ⟨_, rfl⟩, ⟨_, rfl⟩⟩

/-- First and last address, smallest and largest value, and the values just outside. -/
theorem witness_memory_access :
    (machine 4 []).mem.wf ∧ ((0 : Int) ≤ 3 ∧ (3 : Int) < (machine 4 []).mem.capacity) ∧ ((0 : Int) ≤ 255 ∧ (255 : Int) < 256) ∧
      ((-1 : Int) < 0) ∧ ((machine 4 []).mem.capacity ≤ (4 : Int)) ∧ ((256 : Int) ≤ 256) := by decide

theorem witness_ReadAfterWriteReturnsTheValue :
    ∃ s, construct 1 = .ok s ∧ (0 : Int) ≤ 0 ∧ (0 : Int) < 1 := ⟨_, rfl, by decide⟩

theorem witness_CanonicalMemoriesWithEqualCellsAreEqual :
    ∃ m m' : Memory, m.wf ∧ m'.wf ∧ m.capacity = m'.capacity ∧ ∀ a : Nat, m.cell a = m'.cell a :=
  ⟨(machine 4 [0, 5]).mem, ⟨4, [(1, 5)]⟩, by decide, by decide, rfl, fun _ => rfl⟩

/-- Registers 0 and 7 and the first and last reachable cell, register 8, and the address just past the memory. -/
theorem witness_LoadReadsByteZeroExtended :
    (7#8).toNat < Config.nreg ∧ (255#8).toNat < (machine 256 []).mem.capacity ∧ Config.nreg ≤ (8#8).toNat ∧
      (machine 255 []).mem.capacity ≤ (255#8).toNat := by decide

/-- An enabled state whose opcode's operands lie past the end, for every length with operands: the hypotheses of
`OperandFetchFaults` in the rules of the instructions. -/
theorem witness_OperandFetchFaults :
    ∀ b ∈ ([0x01, 0x02, 0x03, 0x04, 0x10, 0x11, 0x12, 0x13, 0x14, 0x20] : List Byte),
      (machine 1 [b]).Enabled ∧ (machine 1 [b]).mem.cell (machine 1 [b]).pc = b ∧
        (machine 1 [b]).mem.capacity < (machine 1 [b]).pc + 2 := by decide

theorem witness_indices :
    (0#8).toNat < Config.nreg ∧ (7#8).toNat < Config.nreg ∧ Config.nreg ≤ (8#8).toNat ∧ Config.nreg ≤ (255#8).toNat := by
  decide

/-- A storable value at the last cell, a value just too large, and an address just past the memory. -/
theorem witness_StoreWritesByteOrFaults :
    (((machine 32 []).setReg 7 255).regs[7]).toNat < 256 ∧ (31#8).toNat < (machine 32 []).mem.capacity ∧ (machine 32 []).mem.wf ∧
      256 ≤ (((machine 32 []).setReg 7 256).regs[7]).toNat ∧ (machine 32 []).mem.capacity ≤ (32#8).toNat := by decide

theorem witness_StoreIsSeenByNextFetch :
    (machine 256 []).mem.wf ∧ (255#8).toNat < (machine 256 []).mem.capacity ∧
      (((machine 256 []).setReg 7 255).regs[7]).toNat < 256 ∧ ((machine 256 []).setPc 255).pc = (255#8).toNat := by decide

/-- A divisor that is not 0, one that is, and the overflowing pair. -/
theorem witness_division :
    ((machine 1 []).setReg 7 1).regs[7] ≠ 0 ∧ (machine 1 []).regs[7] = 0 ∧
      (((machine 1 []).setReg 0 0x80000000).regs[0]).toInt = -2 ^ 31 ∧
      (((machine 1 []).setReg 7 0xFFFFFFFF).regs[7]).toInt = -1 := by decide

theorem witness_NopHasNoEffect :
    (machine 1 [0xFE]).Enabled ∧ (machine 1 [0xFE]).mem.cell 0 = 0xFE ∧ 0 + 1 = (machine 1 [0xFE]).mem.capacity := by decide

theorem witness_HaltSetsTheFlagAndEndsTheRun :
    (machine 1 [0xFF]).Enabled ∧ (machine 1 [0xFF]).mem.cell 0 = 0xFF ∧
      ((machine 1 [0xFF]).setHalted true).fault = none ∧ ((machine 1 [0xFF]).setHalted true).halted = true := by decide

/-- Each check is the first to fail somewhere. -/
theorem witness_FirstFailingCheckIsReported :
    (Opcode.ofByte ((machine 1 [0x05]).mem.cell 0) = none ∧ (machine 1 [0x05]).Enabled) ∧
      (Instr.add 7 8).registerOperands.find? (fun r => decide (Config.nreg ≤ r.toNat)) = some 8 ∧
      ((∀ r ∈ (Instr.load 7 16).registerOperands, r.toNat < Config.nreg) ∧ (Instr.load 7 16).addressOperand = some 16 ∧
        (machine 16 []).mem.capacity ≤ (16#8).toNat) := by decide

theorem witness_WellFormedInstructionCompletes :
    (Instr.store 7 15).wellFormed (machine 16 []).mem.capacity = true ∧
      (((machine 16 []).setReg 7 255).regs[7]).toNat < 256 ∧
      (Instr.div 0 7).wellFormed (machine 16 []).mem.capacity = true ∧ ((machine 16 []).setReg 7 255).regs[7] ≠ 0 := by decide

theorem witness_ExecLatchesErrorsAndNothingElse : (machine 1 []).fault = none := rfl

theorem witness_frames :
    (∃ t, exec (.load 0 0) (machine 1 []) = .next t) ∧ (∃ t, exec (.add 7 8) (machine 1 []) = .next t) ∧
      (∃ t, exec (.store 7 0) (machine 1 []) = .next t) ∧ ∃ t, exec .halt (machine 1 []) = .next t :=
  ⟨⟨_, rfl⟩, ⟨_, rfl⟩, ⟨_, rfl⟩, ⟨_, rfl⟩⟩

/-- Two states that differ in cell 256 only, both able to step. -/
theorem witness_FarCellsMatterOnlyWhenFetched :
    let s := machine 300 [0xFE]
    let s' := s.setMem (s.mem.setCell 256 7)
    s.mem.wf ∧ s'.mem.wf ∧ s'.regs = s.regs ∧ s'.mem.capacity = s.mem.capacity ∧
      (∀ k : Nat, k < 3 → s'.mem.cell (s.pc + k) = s.mem.cell (s.pc + k)) ∧ s'.mem.cell 256 ≠ s.mem.cell 256 ∧
      ∃ t, step s = .next t :=
  ⟨by decide, by decide, rfl, rfl, by decide, by decide, _, rfl⟩

/-- Faults of the decode, of an operand fetch, and of an instruction. -/
theorem witness_FaultsArePrecise :
    (∃ t, step (machine 1 [0x05]) = .next t ∧ t.fault = some (.unknownOpcode 0x05) ∧
        decode ((machine 1 [0x05]).mem.bytesFrom 0 3) = .error (.unknownOpcode 0x05)) ∧
      (∃ t, step (machine 2 [0x02, 0]) = .next t ∧ t.fault = some (.outOfBounds 2) ∧
        decode ((machine 2 [0x02, 0]).mem.bytesFrom 0 3) = .error (.missingOperand 0x02)) ∧
      ∃ t, step (machine 3 [0x13, 0, 1]) = .next t ∧ t.fault = some .divisionByZero ∧
        decode ((machine 3 [0x13, 0, 1]).mem.bytesFrom 0 3) = .ok (.div 0 1, []) :=
  ⟨⟨_, rfl, rfl, by decide⟩, ⟨_, rfl, rfl, by decide⟩, _, rfl, rfl, by decide⟩

theorem witness_EveryStepKeepsInv : (machine 1 [0xFF]).Inv ∧ ∃ t, step (machine 1 [0xFF]) = .next t :=
  ⟨⟨by decide, by decide, by decide, fun _ h => (by cases h), fun h => (by cases h)⟩, _, rfl⟩

theorem witness_EveryReachableStateMeetsInv : Reachable (State.ofCapacity 1) := .construct 1 _ rfl

theorem witness_StoppedMachineRunsNoStep :
    ((machine 1 []).takeError .divisionByZero).fault = some .divisionByZero ∧
      ((machine 1 []).setHalted true).fault = none ∧ ((machine 1 []).setHalted true).halted = true ∧
      (machine 1 []).halted = false ∧ (machine 1 []).mem.capacity ≤ ((machine 1 []).setPc 1).pc := by decide

theorem witness_RunOutcomeMatchesFinalState :
    (∃ t, run (machine 1 [0xFF]) = some (.halted, t)) ∧ (∃ t, run (machine 1 [0xFE]) = some (.endOfMemory, t)) ∧
      ∃ t, run (machine 1 [0x00]) = some (.fault (.unknownOpcode 0), t) :=
  ⟨⟨_, rfl⟩, ⟨_, rfl⟩, ⟨_, rfl⟩⟩

theorem witness_ConstructionClearsEverything : (0 : Int) < 1 ∧ (1 : Int) ≤ 1 := by decide

/-- A program just too long, one that fits exactly, and one whose second element is no byte value. -/
theorem witness_LoadProgramWritesFromAddressZero :
    (machine 2 []).mem.wf ∧ (machine 2 []).mem.capacity < [1, 2, (3 : Int)].length ∧
      ([0, (255 : Int)].length ≤ (machine 2 []).mem.capacity ∧ ∀ v ∈ [0, (255 : Int)], 0 ≤ v ∧ v < 256) ∧
      [7, (256 : Int)].length ≤ (machine 2 []).mem.capacity ∧ 1 < [7, (256 : Int)].length ∧
      (0 ≤ [7, (256 : Int)][0] ∧ [7, (256 : Int)][0] < 256) ∧ (256 : Int) ≤ [7, (256 : Int)][1] := by decide

theorem witness_LoadedProgramStartsWithItsFirstInstruction :
    (machine 3 []).mem.wf ∧ (machine 3 []).fault = none ∧ (machine 3 []).halted = false ∧
      (encode (.add 0 1) ++ []).length ≤ (machine 3 []).mem.capacity := by decide

theorem witness_HostReadAndWriteAnswer :
    (∃ b, (machine 1 []).mem.read 0 = .ok b) ∧ (∃ e, (machine 1 []).mem.read (-1) = .error e) ∧
      (∃ m, (machine 1 []).mem.write 0 255 = .ok m) ∧ ∃ e, (machine 1 []).mem.write 0 256 = .error e :=
  ⟨⟨_, rfl⟩, ⟨_, rfl⟩, ⟨_, rfl⟩, ⟨_, rfl⟩⟩

theorem witness_AccessorsReportAndChangeNothing :
    (machine 1 []).fault = none ∧ ((machine 1 []).takeError .divisionByZero).fault = some .divisionByZero := by decide

theorem witness_OnlyResetLeavesFaultOrHalted :
    HostOp.run ≠ .reset ∧ HostOp.status ≠ .run ∧ ((machine 1 []).takeError .divisionByZero).fault = some .divisionByZero ∧
      ((machine 1 []).setHalted true).halted = true := by decide

end Sys2Proof.Tests
end

section
/-! PROOFS. The state family: what every step does to `pc`, the halted flag and memory, the frame of the instructions that
write a register, the bound of a run, and the invariant at reset. -/

namespace Sys2Proof.Machine

/-! ### What an effect changes -/

/-- Only STORE's effect touches memory (10_state.md R28). -/
theorem Effect.mem_of_ne_store {i : Instr} {s t : State} (h : Effect i s t) (hi : i.opcode ≠ .store) : t.mem = s.mem := by
  cases h with
  | register => rfl
  | cell => exact absurd rfl hi
  | nothing => rfl
  | halted => rfl

/-- STORE's effect touches only the cell its address operand, the second operand byte, names (41_data_transfer.md R103). -/
theorem Effect.cell_of_ne {i : Instr} {s t : State} (h : Effect i s t) (x : Nat)
    (hx : ∀ r a, i = .store r a → x ≠ a.toNat) : t.mem.cell x = s.mem.cell x := by
  cases h with
  | register => rfl
  | cell r a _ hr ha b hb => exact Memory.cell_setCell_ne s.mem a.toNat x b (hx r a rfl)
  | nothing => rfl
  | halted => rfl

/-- Only HALT's effect sets the halted flag, and none clears it (10_state.md R25). -/
theorem Effect.halted_iff {i : Instr} {s t : State} (h : Effect i s t) :
    t.halted = true ↔ s.halted = true ∨ i = .halt := by
  cases h with
  | register i _ r hr v hd =>
    have hi : i ≠ .halt := by rintro rfl; cases hd
    simp [hi]
  | cell => simp
  | nothing => simp
  | halted => simp

/-- The effect of an instruction with a destination register is one write of that register (10_state.md R21). -/
theorem Effect.eq_setReg {i : Instr} {s t : State} {d : Byte} (h : Effect i s t) (hd : destByte i = some d) :
    ∃ (hr : d.toNat < Config.nreg) (v : Word), t = s.setReg ⟨d.toNat, hr⟩ v := by
  cases h with
  | register _ _ r hr v hr' =>
    obtain rfl : r = d := Option.some.inj (hr'.symm.trans hd)
    exact ⟨hr, v, rfl⟩
  | cell => cases hd
  | nothing => cases hd
  | halted => cases hd

/-- A register write leaves every register of another number alone. -/
theorem State.setReg_regs_getElem_ne (s : State) (i : Fin Config.nreg) (v : Word) (k : Nat) (hk : k < Config.nreg)
    (h : k ≠ i) : (s.setReg i v).regs[k] = s.regs[k] :=
  s.reg_setReg_ne i ⟨k, hk⟩ v fun e => h (congrArg Fin.val e).symm

/-- The opcode byte `0xFF` is HALT's alone (30_encoding.md R64). -/
theorem opcode_byte_eq_halt_iff (i : Instr) : i.opcode.byte = 0xFF ↔ i = .halt := by
  refine ⟨fun h => ?_, fun h => h ▸ rfl⟩
  have ho := Opcode.eq_halt_of_byte h
  cases i <;> cases ho
  rfl

/-! ### What a step that answers a next state did -/

/-- A step that answers a next state ran the instruction whose bytes stand at `pc` to its effect, or took an error with
`pc` after the bytes fetched and nothing else changed. -/
theorem step_next_cases {s t : State} (h : step s = .next t) :
    (∃ i, s.pc + i.length ≤ s.mem.capacity ∧ i.opcode.byte = s.mem.cell s.pc ∧
        (∀ k (hk : k < i.operands.length), i.operands[k] = s.mem.cell (s.pc + 1 + k)) ∧
        Effect i (s.setPc (s.pc + i.length)) t) ∨
      (∃ p e, t = (s.setPc p).takeError e ∧ s.pc < p ∧ p ≤ s.mem.capacity ∧ p ≤ s.pc + 3 ∧
        s.mem.cell s.pc ≠ 0xFF ∧ e.raisedByRun) := by
  rcases step_cases s (stopReason_of_next h) with ⟨i, t', -, hle, hb, hops, ht, he⟩ | ⟨p, e, ht, hp⟩
  · obtain rfl : t' = t := Host.Outcome.next.inj (ht.symm.trans h)
    exact .inl ⟨i, hle, hb, hops, he⟩
  · exact .inr ⟨p, e, (Host.Outcome.next.inj (ht.symm.trans h)).symm, hp⟩

/-- Where no test of the run loop stops it, a step has a next state (40_execution_loop.md R85). -/
theorem exists_step_of_enabled {s : State} (h : stopReason s = none) : ∃ t, step s = .next t := by
  rcases step_cases s h with ⟨_, t, -, -, -, -, ht, -⟩ | ⟨p, e, ht, -⟩
  · exact ⟨t, ht⟩
  · exact ⟨_, ht⟩

/-- A step keeps the capacity (20_memory.md R41). -/
theorem step_capacity {s t : State} (h : step s = .next t) : t.mem.capacity = s.mem.capacity := by
  rcases step_next_cases h with ⟨i, -, -, -, he⟩ | ⟨p, e, rfl, -⟩
  · exact he.capacity
  · rfl

/-- Settles O9: an instruction's length is one to three bytes, and a fetch that fails stops within the same bounds. -/
theorem everyStepAdvancesPc : Obligations.EveryStepAdvancesPc := by
  intro s t h
  rcases step_next_cases h with ⟨i, hle, -, -, he⟩ | ⟨p, e, rfl, hlt, hle, h3, -⟩
  · have hpc : t.pc = s.pc + i.length := he.pc
    have hpos := i.length_pos
    have hthree := i.length_le
    omega
  · exact ⟨hlt, h3, hle⟩

/-- Settles O39: a step begins with the flag clear, and only HALT's effect sets it. -/
theorem onlyHaltSetsHalted : Obligations.OnlyHaltSetsHalted := by
  intro s t h
  obtain ⟨-, hrunning, -⟩ := stopReason_eq_none.mp (stopReason_of_next h)
  rcases step_next_cases h with ⟨i, -, hb, -, he⟩ | ⟨p, e, rfl, -, -, -, hne, -⟩
  · rw [he.halted_iff, State.setPc_halted, hrunning, ← hb, opcode_byte_eq_halt_iff]
    simp
  · rw [State.takeError_halted, State.setPc_halted, hrunning]
    exact iff_of_false Bool.false_ne_true hne

/-- A step leaves every cell alone but the one the second operand byte names. -/
theorem step_cell_of_ne {s t : State} (h : step s = .next t) (x : Nat) (hx : x ≠ (s.mem.cell (s.pc + 2)).toNat) :
    t.mem.cell x = s.mem.cell x := by
  rcases step_next_cases h with ⟨i, -, -, hops, he⟩ | ⟨p, e, rfl, -⟩
  · refine he.cell_of_ne x fun r a hi => ?_
    subst hi
    have ha : a = s.mem.cell (s.pc + 2) := hops 1 Nat.one_lt_two
    rwa [ha]
  · rfl

/-- Settles O40: of the effects only STORE's writes memory, and an operand byte names no address above 255. -/
theorem onlyStoreWritesMemory : Obligations.OnlyStoreWritesMemory := by
  intro s t h
  refine ⟨step_capacity h, fun hop => ?_, step_cell_of_ne h, fun x hx => step_cell_of_ne h x ?_⟩
  · rcases step_next_cases h with ⟨i, -, hb, -, he⟩ | ⟨p, e, rfl, -⟩
    · refine he.mem_of_ne_store fun hi => hop ?_
      rw [← hb, hi]
      rfl
    · rfl
  · have := (s.mem.cell (s.pc + 2)).isLt
    omega

/-! ### The frame of the instructions that write a register -/

/-- All an instruction with a destination register can do: write that register, or take an error. -/
theorem exec_cases_of_destByte {i : Instr} {d : Byte} (hd : destByte i = some d) {s t : State} (h : exec i s = .next t) :
    (∃ (hr : d.toNat < Config.nreg) (v : Word), t = s.setReg ⟨d.toNat, hr⟩ v) ∨ ∃ e, t = s.takeError e := by
  rcases exec_cases i s with ⟨t', ht, he⟩ | ⟨e, ht, -⟩
  · obtain rfl : t' = t := Host.Outcome.next.inj (ht.symm.trans h)
    exact .inl (he.eq_setReg hd)
  · exact .inr ⟨e, (Host.Outcome.next.inj (ht.symm.trans h)).symm⟩

/-- Settles O36: each of the nine instructions has its first operand as destination register. -/
theorem registerInstructionsFrame : Obligations.RegisterInstructionsFrame := by
  intro d y i s t hi h
  have hd : destByte i = some d := by
    rcases hi with rfl | rfl | rfl | rfl | rfl | rfl | rfl | rfl | rfl <;> rfl
  rcases exec_cases_of_destByte hd h with ⟨hr, v, rfl⟩ | ⟨e, rfl⟩
  · exact ⟨fun k hk hne => s.setReg_regs_getElem_ne ⟨d.toNat, hr⟩ v k hk hne, rfl, rfl, rfl, fun _ => rfl, .inl rfl⟩
  · exact ⟨fun _ _ _ => rfl, rfl, rfl, rfl, fun _ => rfl, .inr ⟨e, rfl⟩⟩

/-! ### The bound of a run -/

/-- A loop with more turns than bytes are left above `pc` ends in a stop, after at most one step per byte: every step
uses up a byte. -/
theorem runLoop_ends (n : Nat) (s : State) (hn : s.mem.capacity - s.pc ≤ n) :
    ∃ (k : Nat) (t : State) (r : Fault), k ≤ s.mem.capacity - s.pc ∧ StepsTo k s t ∧ step t = .fault r ∧
      runLoop (n + 1) s = some (RunOutcome.ofStop r, t) := by
  induction n generalizing s with
  | zero =>
    cases hs : stopReason s with
    | some r => exact ⟨0, s, r, Nat.zero_le _, .zero s, step_of_stop hs, runLoop_of_stop 0 hs⟩
    | none =>
      obtain ⟨-, -, hlt⟩ := stopReason_eq_none.mp hs
      omega
  | succ n ih =>
    cases hs : stopReason s with
    | some r => exact ⟨0, s, r, Nat.zero_le _, .zero s, step_of_stop hs, runLoop_of_stop (n + 1) hs⟩
    | none =>
      obtain ⟨s', hstep⟩ := exists_step_of_enabled hs
      obtain ⟨hlt, -, hle⟩ := everyStepAdvancesPc s s' hstep
      have hcap := step_capacity hstep
      obtain ⟨k, t, r, hk, hsteps, hstop, hrun⟩ := ih s' (by omega)
      exact ⟨k + 1, t, r, by omega, .succ k s s' t hstep hsteps, hstop, (runLoop_of_next (n + 1) hstep).trans hrun⟩

/-- Settles O48: `run` is the loop with one turn more than bytes are left above `pc`. -/
theorem everyRunEndsWithinMemorySize : Obligations.EveryRunEndsWithinMemorySize :=
  fun s => runLoop_ends (s.mem.capacity - s.pc) s le_rfl

/-! ### The invariant at reset -/

/-- A machine just constructed with a positive capacity meets the invariant (10_state.md R31). -/
theorem State.ofCapacity_inv (n : Nat) (h : 1 ≤ n) : (State.ofCapacity n).Inv where
  capacity_pos := h
  pc_le := Nat.zero_le n
  mem_wf := Memory.wf_empty n
  fault_run e he := by cases he
  fault_not_halted _ := rfl

/-- Settles O45: reset is construction with the model's capacity, which is positive. -/
theorem resetStateMeetsInv : Obligations.ResetStateMeetsInv :=
  State.ofCapacity_inv Config.memSize (by decide)

end Sys2Proof.Machine
end

section
/-! PROOFS. The memory family: the laws of one read and one write, the invariant every step keeps, the capacity, and what
the cells above an operand byte's reach can influence. -/

namespace Sys2Proof.Machine

/-! ### The invariant -/

/-- An effect on a machine that meets the invariant, with nothing latched before it, ends in one that does. -/
theorem Effect.inv {i : Instr} {s t : State} (h : Effect i s t) (hs : s.Inv) (hf : s.fault = none) : t.Inv where
  capacity_pos := h.capacity ▸ hs.capacity_pos
  pc_le := h.pc ▸ h.capacity ▸ hs.pc_le
  mem_wf := h.mem_wf hs.mem_wf
  fault_run e he := by rw [h.fault, hf] at he; cases he
  fault_not_halted he := by rw [h.fault, hf] at he; cases he

/-- Moving `pc` to another place up to the capacity keeps the invariant. -/
theorem State.Inv.setPc {s : State} (h : s.Inv) {p : Nat} (hp : p ≤ s.mem.capacity) : (s.setPc p).Inv :=
  { h with pc_le := hp }

/-- A running machine that takes an error of a run keeps the invariant. -/
theorem State.Inv.takeError {s : State} (h : s.Inv) (hr : s.halted = false) {e : MachineError} (he : e.raisedByRun) :
    (s.takeError e).Inv :=
  { h with
    fault_run := fun _ hx => Option.some.inj hx ▸ he
    fault_not_halted := fun _ => hr }

/-- Settles O46: the instruction fetched has its effect, or an error of a run is taken, with `pc` moved inside the
capacity in both cases. -/
theorem everyStepKeepsInv : Obligations.EveryStepKeepsInv := by
  intro s t hs h
  obtain ⟨hfault, hrunning, -⟩ := stopReason_eq_none.mp (stopReason_of_next h)
  rcases step_next_cases h with ⟨i, hle, -, -, he⟩ | ⟨p, e, rfl, -, hle, -, -, hrun⟩
  · exact he.inv (hs.setPc hle) hfault
  · exact (hs.setPc hle).takeError hrunning hrun

/-! ### One read and one write -/

/-- A read outside the bounds fails with the address. -/
theorem Memory.read_of_outside (m : Memory) (addr : Int) (h : addr < 0 ∨ (m.capacity : Int) ≤ addr) :
    m.read addr = .error (.outOfBounds addr) := by
  rcases m.read_cases addr with ⟨a, rfl, ha, -⟩ | ⟨-, hr⟩
  · omega
  · exact hr

/-- A write outside the bounds fails with the address, whatever the value. -/
theorem Memory.write_of_outside (m : Memory) (addr v : Int) (h : addr < 0 ∨ (m.capacity : Int) ≤ addr) :
    m.write addr v = .error (.outOfBounds addr) := by
  rcases m.write_cases addr v with ⟨a, b, rfl, ha, -⟩ | ⟨-, hw⟩ | ⟨hin, -⟩
  · omega
  · exact hw
  · omega

/-- A write inside the bounds of a value that is no byte fails with the value. -/
theorem Memory.write_of_no_byte (m : Memory) (addr v : Int) (h0 : 0 ≤ addr) (hc : addr < m.capacity)
    (hv : v < 0 ∨ 256 ≤ v) : m.write addr v = .error (.valueRange v) := by
  rcases m.write_cases addr v with ⟨a, b, -, -, rfl, -⟩ | ⟨hout, -⟩ | ⟨-, -, hw⟩
  · have := b.isLt
    omega
  · omega
  · exact hw

/-- A write inside the bounds of a byte value sets the one cell to that byte. -/
theorem Memory.write_of_byte (m : Memory) (addr v : Int) (h0 : 0 ≤ addr) (hc : addr < m.capacity) (hv0 : 0 ≤ v)
    (hv : v < 256) :
    ∃ (a : Nat) (b : Byte), addr = a ∧ a < m.capacity ∧ v = b.toNat ∧ m.write addr v = .ok (m.setCell a b) := by
  rcases m.write_cases addr v with hw | ⟨hout, -⟩ | ⟨-, hbad, -⟩
  · exact hw
  · omega
  · omega

/-- The address just written reads as the byte written. -/
theorem Memory.read_setCell_same (m : Memory) (a : Nat) (b : Byte) (hw : m.wf) (ha : a < m.capacity) :
    (m.setCell a b).read a = .ok b := by
  rw [Memory.read_of_lt (m.setCell a b) a ha, Memory.cell_setCell_same m a b hw]

/-- Every other address, inside the bounds or not, reads as before. -/
theorem Memory.read_setCell_ne (m : Memory) (a : Nat) (b : Byte) (addr : Int) (h : addr ≠ a) :
    (m.setCell a b).read addr = m.read addr := by
  rcases m.read_cases addr with ⟨x, rfl, hx, hr⟩ | ⟨hout, hr⟩
  · have hne : x ≠ a := fun e => h (congrArg Nat.cast e)
    rw [hr, Memory.read_of_lt (m.setCell a b) x hx, Memory.cell_setCell_ne m a x b hne]
  · rw [hr, Memory.read_of_outside (m.setCell a b) addr hout]

/-- Settles O11: the three answers of a write, by the test that decides each. -/
theorem memoryWriteChecksAddressThenValue : Obligations.MemoryWriteChecksAddressThenValue := by
  intro m addr v hwf
  refine ⟨fun h0 hc hv0 hv => ?_, m.write_of_outside addr v, m.write_of_no_byte addr v⟩
  obtain ⟨a, b, rfl, ha, rfl, hw⟩ := m.write_of_byte addr v h0 hc hv0 hv
  refine ⟨m.setCell a b, hw, m.setCell_wf a b hwf ha, rfl, ?_, fun x hx => ?_⟩
  · rw [Int.toNat_natCast, m.cell_setCell_same a b hwf]
  · exact m.cell_setCell_ne a x b fun e => hx (congrArg Nat.cast e)

/-- Settles O12: what the write left, read at the address written and at every other. -/
theorem readAfterWriteReturnsTheValue : Obligations.ReadAfterWriteReturnsTheValue := by
  refine ⟨fun m addr v hwf h0 hc hv0 hv => ?_, fun m addr v hout => ?_, fun size addr s hs h0 hlt => ?_⟩
  · obtain ⟨a, b, rfl, ha, rfl, hw⟩ := m.write_of_byte addr v h0 hc hv0 hv
    refine ⟨m.setCell a b, hw, ?_, m.read_setCell_ne a b⟩
    rw [m.read_setCell_same a b hwf ha, BitVec.ofInt_natCast, BitVec.ofNat_toNat, BitVec.setWidth_eq]
  · exact ⟨m.read_of_outside addr hout, m.write_of_outside addr v hout⟩
  · rcases construct_cases size with ⟨-, hok⟩ | ⟨-, herr⟩
    · obtain rfl : State.ofCapacity size.toNat = s := Except.ok.inj (hok.symm.trans hs)
      obtain ⟨a, rfl⟩ := Int.eq_ofNat_of_zero_le h0
      exact Memory.read_of_lt (State.ofCapacity size.toNat).mem a (show a < size.toNat by omega)
    · rw [herr] at hs
      cases hs

/-- Settles O10: the two answers of a read, by the bounds test. -/
theorem memoryReadChecksBounds : Obligations.MemoryReadChecksBounds := by
  refine fun m addr => ⟨fun h0 hlt => ?_, m.read_of_outside addr⟩
  obtain ⟨a, rfl⟩ := Int.eq_ofNat_of_zero_le h0
  exact m.read_of_lt a (Int.ofNat_lt.mp hlt)

/-! ### STORE, and the fetch after it -/

/-- STORE of a byte value to a cell that exists sets that cell to the register's low byte, and nothing else
(41_data_transfer.md R103). -/
theorem exec_store_of_byte (r a : Byte) (s : State) (hr : r.toNat < Config.nreg) (ha : a.toNat < s.mem.capacity)
    (hv : (s.regs[r.toNat]).toNat < 256) :
    exec (.store r a) s = .next (s.setMem (s.mem.setCell a.toNat ((s.regs[r.toNat]).setWidth 8))) := by
  have hval : storeValue (s.reg ⟨r.toNat, hr⟩) = ((s.regs[r.toNat]).setWidth 8).toNat := by
    rw [storeValue, State.reg_eq_getElem, BitVec.toNat_setWidth, Nat.mod_eq_of_lt hv]
  simp only [exec, execStore, address, regIndex_of_lt r hr, hval, Memory.write_of_lt s.mem a.toNat _ ha,
    except_bind_ok, except_pure, settle_ok]

/-- Settles O19: the fetch reads the cell at `pc`, which the STORE has just set. -/
theorem storeIsSeenByNextFetch : Obligations.StoreIsSeenByNextFetch := by
  intro r a s hr hwf ha hv hpc
  refine ⟨_, exec_store_of_byte r a s hr ha hv, ?_⟩
  rw [fetch_of_lt _ (by rw [State.setMem_pc, hpc]; exact ha), State.setMem_mem, State.setMem_pc, hpc,
    s.mem.cell_setCell_same a.toNat _ hwf]
  rfl

/-! ### The capacity -/

/-- A run keeps the capacity, since each of its steps does. -/
theorem runLoop_capacity {n : Nat} {s t : State} {o : RunOutcome} (h : runLoop n s = some (o, t)) :
    t.mem.capacity = s.mem.capacity := by
  induction n generalizing s with
  | zero => cases h
  | succ n ih =>
    cases hs : stopReason s with
    | some r =>
      rw [runLoop_of_stop n hs] at h
      cases h
      rfl
    | none =>
      obtain ⟨s', hstep⟩ := exists_step_of_enabled hs
      rw [runLoop_of_next n hstep] at h
      exact (ih h).trans (step_capacity hstep)

/-- A host write keeps the capacity. -/
theorem hostWrite_capacity (addr v : Int) (s : State) : (hostWrite addr v s).2.mem.capacity = s.mem.capacity := by
  rcases hostWrite_cases addr v s with ⟨m, hw, h⟩ | ⟨e, -, h⟩ <;> rw [h]
  obtain ⟨a, b, -, -, -, rfl⟩ := Memory.write_ok hw
  rfl

/-- A bulk load keeps the capacity, since each of its writes does. -/
theorem hostBulkLoad_capacity (addr : Int) (vs : List Int) (s : State) :
    (hostBulkLoad addr vs s).2.mem.capacity = s.mem.capacity := by
  rw [hostBulkLoad_snd]
  exact s.mem.writeAll_capacity addr vs

/-- `loadProgram` keeps the capacity: all it does to memory is a sequence of writes. -/
theorem loadProgram_capacity (bytes : List Int) (s : State) :
    (loadProgram bytes s).2.mem.capacity = s.mem.capacity := by
  have hall := s.mem.writeAll_capacity 0 bytes
  rcases loadProgram_cases bytes s with ⟨-, h⟩ | ⟨-, m, hw, h⟩ | ⟨-, m, e, hw, h⟩ <;> rw [h]
  all_goals
    rw [hw] at hall
    exact hall

/-- A `run` transaction keeps the capacity. -/
theorem hostRun_capacity (s : State) : (hostRun s).2.mem.capacity = s.mem.capacity := by
  unfold hostRun
  split
  · next h => exact runLoop_capacity h
  · rfl

/-- Settles O60: of the transactions only a write, the two loads and a run touch memory. -/
theorem capacityIsFixedAtConstruction : Obligations.CapacityIsFixedAtConstruction := by
  refine ⟨fun s t h => step_capacity h, fun op s => ?_⟩
  cases op with
  | write addr v => exact hostWrite_capacity addr v s
  | bulkLoad addr vs => exact hostBulkLoad_capacity addr vs s
  | loadProgram bytes => exact loadProgram_capacity bytes s
  | run => exact hostRun_capacity s
  | read | size | view | reset | getRegisters | isHalted | status => rfl

/-! ### Cells no operand byte can name -/

/-- The second memory has the first one's capacity and, at every address an operand byte can name, its cells
(20_memory.md R49). -/
structure Memory.AgreeNear (m m' : Memory) : Prop where
  capacity : m'.capacity = m.capacity
  cell : ∀ x < 256, m'.cell x = m.cell x

/-- A read at an operand byte's address is the same in both memories. -/
theorem Memory.AgreeNear.read_address {m m' : Memory} (h : m.AgreeNear m') (a : Byte) :
    m'.read (address a) = m.read (address a) := by
  have hcap := h.capacity
  rcases Nat.lt_or_ge a.toNat m.capacity with ha | ha
  · rw [address, m.read_of_lt a.toNat ha, m'.read_of_lt a.toNat (by omega), h.cell a.toNat a.isLt]
  · rw [address, m.read_of_ge a.toNat ha, m'.read_of_ge a.toNat (by omega)]

/-- Setting the same cell in both memories keeps the agreement. -/
theorem Memory.AgreeNear.setCell {m m' : Memory} (h : m.AgreeNear m') (hm : m.wf) (hm' : m'.wf) (a : Nat) (b : Byte) :
    (m.setCell a b).AgreeNear (m'.setCell a b) where
  capacity := h.capacity
  cell x hx := by
    by_cases hxa : x = a
    · rw [hxa, m.cell_setCell_same a b hm, m'.cell_setCell_same a b hm']
    · rw [m.cell_setCell_ne a x b hxa, m'.cell_setCell_ne a x b hxa, h.cell x hx]

/-- A write sets the same cell in both memories, or fails with the same error in both. -/
theorem Memory.AgreeNear.write_cases {m m' : Memory} (h : m.AgreeNear m') (addr v : Int) :
    (∃ a b, m.write addr v = .ok (m.setCell a b) ∧ m'.write addr v = .ok (m'.setCell a b)) ∨
      ∃ e, m.write addr v = .error e ∧ m'.write addr v = .error e := by
  have hcap := h.capacity
  rcases m.write_cases addr v with ⟨a, b, rfl, ha, rfl, hw⟩ | ⟨hout, hw⟩ | ⟨⟨h0, hc⟩, hbad, hw⟩
  · exact .inl ⟨a, b, hw, m'.write_of_lt a b (by omega)⟩
  · exact .inr ⟨_, hw, m'.write_of_outside addr v (by omega)⟩
  · exact .inr ⟨_, hw, m'.write_of_no_byte addr v h0 (by omega) hbad⟩

/-- A window of memory is fixed by the capacity and its own cells. -/
theorem Memory.bytesFrom_congr {m m' : Memory} (hc : m'.capacity = m.capacity) (a n : Nat)
    (h : ∀ k < n, m'.cell (a + k) = m.cell (a + k)) : m'.bytesFrom a n = m.bytesFrom a n := by
  induction n generalizing a with
  | zero => rfl
  | succ n ih =>
    have hrest := ih (a + 1) fun k hk => by
      rw [Nat.add_assoc, Nat.add_comm 1 k]
      exact h (k + 1) (Nat.succ_lt_succ hk)
    have hfirst : m'.cell a = m.cell a := h 0 n.succ_pos
    simp only [Memory.bytesFrom, hc, hfirst, hrest]

@[simp] theorem State.reg_setMem (s : State) (m : Memory) (i : Fin Config.nreg) : (s.setMem m).reg i = s.reg i := rfl

/-- Results that differ only in the memory they carry end an instruction in next states that differ only so. -/
theorem settle_setMem (s : State) (m : Memory) (r : Except MachineError State) :
    ∃ t, settle s r = .next t ∧ settle (s.setMem m) (r.map (·.setMem m)) = .next (t.setMem m) := by
  cases r with
  | ok t => exact ⟨t, rfl, rfl⟩
  | error e => exact ⟨s.takeError e, rfl, rfl⟩

/-- A binary instruction's result does not depend on memory. -/
theorem binaryOp_setMem (f : Word → Word → Except MachineError Word) (a b : Byte) (s : State) (m : Memory) :
    binaryOp f a b (s.setMem m) = (binaryOp f a b s).map (·.setMem m) := by
  rcases regIndex_cases a with ⟨ha, -⟩ | ⟨ha, -⟩
  · rcases regIndex_cases b with ⟨hb, -⟩ | ⟨hb, -⟩
    · simp only [binaryOp_of_lt f a b _ ha hb, State.reg_setMem]
      cases f (s.reg ⟨a.toNat, ha⟩) (s.reg ⟨b.toNat, hb⟩) <;> rfl
    · simp only [binaryOp_of_second_ge f a b _ ha hb, Except.map]
  · simp only [binaryOp_of_first_ge f a b _ ha, Except.map]

/-- An instruction other than STORE, run over a memory that agrees on the near cells, ends alike and keeps that memory:
LOAD alone reads a cell, and its address is an operand byte. -/
theorem exec_setMem_of_ne_store {i : Instr} (hi : i.opcode ≠ .store) (s : State) {m : Memory} (h : s.mem.AgreeNear m) :
    ∃ t, exec i s = .next t ∧ exec i (s.setMem m) = .next (t.setMem m) := by
  have binary (f : Word → Word → Except MachineError Word) (a b : Byte) :
      ∃ t, settle s (binaryOp f a b s) = .next t ∧
        settle (s.setMem m) (binaryOp f a b (s.setMem m)) = .next (t.setMem m) :=
    binaryOp_setMem f a b s m ▸ settle_setMem s m _
  cases i with
  | load r a =>
    simp only [exec, execLoad, State.setMem_mem, h.read_address a]
    cases regIndex r with
    | error e => exact settle_setMem s m (.error e)
    | ok i =>
      cases s.mem.read (address a) with
      | error e => exact settle_setMem s m (.error e)
      | ok b => exact settle_setMem s m (.ok (s.setReg i (zeroExtend b)))
  | loadImm r v =>
    simp only [exec, execLoadImm]
    cases regIndex r with
    | error e => exact settle_setMem s m (.error e)
    | ok i => exact settle_setMem s m (.ok (s.setReg i (zeroExtend v)))
  | mov d r =>
    simp only [exec, execMov]
    cases regIndex d with
    | error e => exact settle_setMem s m (.error e)
    | ok i =>
      cases regIndex r with
      | error e => exact settle_setMem s m (.error e)
      | ok j => exact settle_setMem s m (.ok (s.setReg i (s.reg j)))
  | store r a => exact absurd rfl hi
  | add a b => exact binary _ a b
  | sub a b => exact binary _ a b
  | mul a b => exact binary _ a b
  | div a b => exact binary _ a b
  | mod a b => exact binary _ a b
  | not a =>
    simp only [exec, execNot, unaryOp]
    cases regIndex a with
    | error e => exact settle_setMem s m (.error e)
    | ok i => exact settle_setMem s m (.ok (s.setReg i (notWord (s.reg i))))
  | nop => exact settle_setMem s m (.ok s)
  | halt => exact settle_setMem s m (.ok (s.setHalted true))

/-- An instruction other than STORE keeps memory, whether it completes or takes an error (10_state.md R28). -/
theorem exec_mem_of_ne_store {i : Instr} (hi : i.opcode ≠ .store) {s t : State} (h : exec i s = .next t) :
    t.mem = s.mem := by
  rcases exec_cases i s with ⟨t', ht, he⟩ | ⟨e, ht, -⟩
  · obtain rfl : t' = t := Host.Outcome.next.inj (ht.symm.trans h)
    exact he.mem_of_ne_store hi
  · obtain rfl : s.takeError e = t := Host.Outcome.next.inj (ht.symm.trans h)
    rfl

/-- STORE makes the same write over both memories, or takes the same error. -/
theorem exec_store_agreeNear (r a : Byte) (s : State) {m : Memory} (h : s.mem.AgreeNear m) (hs : s.mem.wf) (hm : m.wf) :
    ∃ t m', exec (.store r a) s = .next t ∧ exec (.store r a) (s.setMem m) = .next (t.setMem m') ∧
      t.mem.AgreeNear m' := by
  simp only [exec, execStore, State.reg_setMem, State.setMem_mem]
  cases regIndex r with
  | error e => exact ⟨s.takeError e, m, rfl, rfl, h⟩
  | ok i =>
    simp only [except_bind_ok]
    rcases h.write_cases (address a) (storeValue (s.reg i)) with ⟨x, b, hw, hw'⟩ | ⟨e, hw, hw'⟩
    · exact ⟨s.setMem (s.mem.setCell x b), m.setCell x b, by rw [hw]; rfl, by rw [hw']; rfl, h.setCell hs hm x b⟩
    · exact ⟨s.takeError e, m, by rw [hw]; rfl, by rw [hw']; rfl, h⟩

/-- Every instruction, run over memories that agree on the near cells, ends in states that differ only in memory and agree
on the near cells again. -/
theorem exec_agreeNear (i : Instr) (s : State) {m : Memory} (h : s.mem.AgreeNear m) (hs : s.mem.wf) (hm : m.wf) :
    ∃ t m', exec i s = .next t ∧ exec i (s.setMem m) = .next (t.setMem m') ∧ t.mem.AgreeNear m' := by
  by_cases hi : i.opcode = .store
  · cases i <;> cases hi
    exact exec_store_agreeNear _ _ s h hs hm
  · obtain ⟨t, ht, ht'⟩ := exec_setMem_of_ne_store hi s h
    exact ⟨t, m, ht, ht', exec_mem_of_ne_store hi ht ▸ h⟩

/-- The fetch of an instruction reads the three bytes at `pc` only: it gives the same over a memory of the same capacity
that holds them too. -/
theorem fetchInstr_setMem (s : State) (m : Memory) (hpc : s.pc < s.mem.capacity) (hc : m.capacity = s.mem.capacity)
    (hb : ∀ k < 3, m.cell (s.pc + k) = s.mem.cell (s.pc + k)) :
    (∃ i p, fetchInstr s = .ok i (s.setPc p) ∧ fetchInstr (s.setMem m) = .ok i ((s.setMem m).setPc p)) ∨
      ∃ e p, fetchInstr s = .error e (s.setPc p) ∧ fetchInstr (s.setMem m) = .error e ((s.setMem m).setPc p) := by
  have hf := fetchInstr_of_decode s hpc
  have hf' := fetchInstr_of_decode (s.setMem m) (hc ▸ hpc)
  simp only [State.setMem_mem, State.setMem_pc, Memory.bytesFrom_congr hc s.pc 3 hb, hc] at hf'
  cases hd : decode (s.mem.bytesFrom s.pc 3) with
  | ok r =>
    rw [hd] at hf hf'
    exact .inl ⟨r.1, _, hf, hf'⟩
  | error e =>
    rw [hd] at hf hf'
    cases e with
    | noOpcode => exact hf.elim
    | unknownOpcode op => exact .inr ⟨_, _, hf, hf'⟩
    | missingOperand op => exact .inr ⟨_, _, hf, hf'⟩

/-- A step over a memory that agrees on the near cells and on the three bytes at `pc` does the same, and the memories agree
on the near cells again. -/
theorem step_agreeNear {s t : State} {m : Memory} (h : s.mem.AgreeNear m) (hs : s.mem.wf) (hm : m.wf)
    (hb : ∀ k < 3, m.cell (s.pc + k) = s.mem.cell (s.pc + k)) (ht : step s = .next t) :
    ∃ m', step (s.setMem m) = .next (t.setMem m') ∧ t.mem.AgreeNear m' := by
  have hen := stopReason_of_next ht
  obtain ⟨hfault, hrunning, hpc⟩ := stopReason_eq_none.mp hen
  have hen' : stopReason (s.setMem m) = none := stopReason_eq_none.mpr ⟨hfault, hrunning, h.capacity.symm ▸ hpc⟩
  rcases fetchInstr_setMem s m hpc h.capacity hb with ⟨i, p, hf, hf'⟩ | ⟨e, p, hf, hf'⟩
  · obtain ⟨u, m', hu, hu', hagree⟩ := exec_agreeNear i (s.setPc p) h hs hm
    simp only [step, hen, hf, hu] at ht
    cases ht
    exact ⟨m', by simp only [step, hen', hf']; exact hu', hagree⟩
  · simp only [step, hen, hf] at ht
    cases ht
    exact ⟨m, by simp only [step, hen', hf']; rfl, h⟩

/-- Settles O42: the second state is the first with its own memory, so one step lemma over the memories gives both steps. -/
theorem farCellsMatterOnlyWhenFetched : Obligations.FarCellsMatterOnlyWhenFetched := by
  intro s s' t hwf hwf' hregs hpc hhalted hfault hcap hnear hbytes ht
  have hs' : s' = s.setMem s'.mem := State.eq_of_fields hregs hpc hhalted hfault rfl
  obtain ⟨m', hstep, hagree⟩ := step_agreeNear ⟨hcap, hnear⟩ hwf hwf' hbytes ht
  exact ⟨t.setMem m', hs' ▸ hstep, rfl, rfl, rfl, rfl, hagree.cell⟩

end Sys2Proof.Machine
end

section
/-! PROOFS. The encoding family: decoding inverts encoding, an instruction's length by its opcode byte, and the opcode bytes
that select no row. -/

namespace Sys2Proof

/-! ### What the decoder answers -/

/-- All decoding can answer where there is an opcode byte: an illegal opcode; an instruction, whose encoding begins the
bytes; or a legal opcode whose operands are missing (30_encoding.md R67). -/
theorem decode_cons_cases (op : Byte) (tail : List Byte) :
    (decode (op :: tail) = .error (.unknownOpcode op) ∧ Opcode.ofByte op = none) ∨
      (∃ i rest, decode (op :: tail) = .ok (i, rest) ∧ op :: tail = encode i ++ rest) ∨
      (decode (op :: tail) = .error (.missingOperand op) ∧ ∃ o, Opcode.ofByte op = some o) := by
  simp only [decode]
  cases ho : Opcode.ofByte op with
  | none => exact .inl ⟨rfl, rfl⟩
  | some o =>
    obtain rfl := Opcode.byte_of_ofByte ho
    simp only
    cases hs : o.shape with
    | noOperand i =>
      obtain ⟨hopcode, hoperands, -⟩ := Opcode.shape_noOperand hs
      exact .inr (.inl ⟨i, tail, rfl, by simp [encode, hopcode, hoperands]⟩)
    | oneOperand mk =>
      match tail with
      | [] => exact .inr (.inr ⟨rfl, o, rfl⟩)
      | a :: rest =>
        obtain ⟨hopcode, hoperands, -⟩ := Opcode.shape_oneOperand hs a
        exact .inr (.inl ⟨mk a, rest, rfl, by simp [encode, hopcode, hoperands]⟩)
    | twoOperands mk =>
      match tail with
      | [] | [_] => exact .inr (.inr ⟨rfl, o, rfl⟩)
      | a :: b :: rest =>
        obtain ⟨hopcode, hoperands, -⟩ := Opcode.shape_twoOperands hs a b
        exact .inr (.inl ⟨mk a b, rest, rfl, by simp [encode, hopcode, hoperands]⟩)

/-- The bytes an instruction is decoded from begin with its encoding: decoding drops no bit of it. -/
theorem eq_encode_append_of_decode {bs rest : List Byte} {i : Instr} (h : decode bs = .ok (i, rest)) :
    bs = encode i ++ rest := by
  cases bs with
  | nil => cases h
  | cons op tail =>
    rcases decode_cons_cases op tail with ⟨hd, -⟩ | ⟨i', rest', hd, hbs⟩ | ⟨hd, -⟩
    · cases hd.symm.trans h
    · cases hd.symm.trans h
      exact hbs
    · cases hd.symm.trans h

/-- An instruction's encoding decodes to it, and leaves whatever bytes follow (30_encoding.md R60, R63). -/
@[simp] theorem decode_encode_append (i : Instr) (rest : List Byte) : decode (encode i ++ rest) = .ok (i, rest) := by
  cases i <;> rfl

/-- The decoder rejects exactly the bytes that select no row as illegal opcodes. -/
theorem decode_eq_unknownOpcode_iff (op : Byte) (tail : List Byte) :
    decode (op :: tail) = .error (.unknownOpcode op) ↔ Opcode.ofByte op = none := by
  rcases decode_cons_cases op tail with ⟨hd, ho⟩ | ⟨i, rest, hd, hbs⟩ | ⟨hd, o, ho⟩
  · exact iff_of_true hd ho
  · obtain rfl : op = i.opcode.byte := (List.cons.inj hbs).1
    simp [hd]
  · simp [hd, ho]

/-- Settles O1: the encoding of every instruction decodes to it before any tail, and only bytes that begin with it do. -/
theorem decodeExactlyInvertsEncode : Obligations.DecodeExactlyInvertsEncode := by
  intro bs rest i
  constructor
  · exact eq_encode_append_of_decode
  · rintro rfl
    exact decode_encode_append i rest

/-! ### Length -/

/-- A row's length read off its opcode byte (30_encoding.md R63, R64). -/
theorem Opcode.format_length_eq (o : Opcode) :
    o.format.length = if o.byte = 0xFE ∨ o.byte = 0xFF then 1 else if o.byte = 0x20 then 2 else 3 := by
  cases o <;> rfl

/-- Settles O2: the bytes decoded are the instruction's encoding, whose first byte is its row's and whose length is its
format's. -/
theorem lengthFollowsFromOpcodeByte : Obligations.LengthFollowsFromOpcodeByte := by
  intro op bs rest i h
  have hbs := eq_encode_append_of_decode h
  obtain rfl : op = i.opcode.byte := (List.cons.inj hbs).1
  rw [hbs, List.length_append, encode_length, Instr.length, Opcode.format_length_eq, Nat.add_comm]

/-! ### Words of each family -/

/-- Settles O4: each word is its instruction's encoding, with no byte after it. -/
theorem specWordsDecode : Obligations.SpecWordsDecode :=
  ⟨decode_encode_append (.load 3 0x20) [], decode_encode_append (.store 0 0x10) [], decode_encode_append (.add 0 1) [],
    decode_encode_append (.not 4) [], decode_encode_append .nop [], decode_encode_append .halt []⟩

end Sys2Proof

namespace Sys2Proof.Machine

/-! ### Illegal opcodes -/

/-- The opcode bytes of the twelve rows, as numbers (30_encoding.md R64). -/
def legalOpcodes : List Nat := Opcode.all.map fun o => o.byte.toNat

/-- The legal opcode bytes, written out from 30_encoding.md R64. -/
theorem legalOpcodes_eq :
    legalOpcodes = [0x01, 0x02, 0x03, 0x04, 0x10, 0x11, 0x12, 0x13, 0x14, 0x20, 0xFE, 0xFF] := rfl

/-- A byte selects no row exactly when its number is none of the twelve. -/
theorem ofByte_eq_none_iff_not_mem (op : Byte) : Opcode.ofByte op = none ↔ op.toNat ∉ legalOpcodes := by
  simp [Opcode.ofByte, legalOpcodes, BitVec.toNat_inj]

/-- The ranges of 30_encoding.md R65 hold exactly the numbers R64 gives to no row. -/
theorem illegalOpcode_iff_not_mem (op : Byte) : IllegalOpcode op ↔ op.toNat ∉ legalOpcodes := by
  have := op.isLt
  rw [legalOpcodes_eq]
  simp only [IllegalOpcode, List.mem_cons, List.not_mem_nil, or_false]
  omega

/-- A byte selects no row exactly when it lies in R65's ranges. -/
theorem ofByte_eq_none_iff_illegalOpcode (op : Byte) : Opcode.ofByte op = none ↔ IllegalOpcode op := by
  rw [ofByte_eq_none_iff_not_mem, illegalOpcode_iff_not_mem]

/-- Of the 256 bytes, all but the twelve rows' select no row. -/
theorem length_filter_ofByte_isNone :
    ((List.range 256).filter fun n => (Opcode.ofByte (BitVec.ofNat 8 n)).isNone).length = 244 := by
  have hmem : ∀ n ∈ Finset.range 256, (Opcode.ofByte (BitVec.ofNat 8 n)).isNone ↔ n ∉ legalOpcodes.toFinset := by
    intro n hn
    rw [Option.isNone_iff_eq_none, ofByte_eq_none_iff_not_mem, List.mem_toFinset,
      BitVec.toNat_ofNat, Nat.mod_eq_of_lt (Finset.mem_range.mp hn)]
  calc ((List.range 256).filter fun n => (Opcode.ofByte (BitVec.ofNat 8 n)).isNone).length
      = ((Finset.range 256).filter fun n => (Opcode.ofByte (BitVec.ofNat 8 n)).isNone).card := by
        rw [← List.toFinset_card_of_nodup (List.nodup_range.filter _), List.toFinset_filter, List.toFinset_range]
    _ = (Finset.range 256 \ legalOpcodes.toFinset).card := by
        rw [Finset.filter_congr hmem, Finset.sdiff_eq_filter]
    _ = 256 - 12 := by
        rw [Finset.card_sdiff_of_subset (by decide), Finset.card_range]
        rfl

/-- Fetching a byte that selects no row raises its error, with `pc` one past it (40_execution_loop.md R84). -/
theorem fetchInstr_of_ofByte_none {s : State} (h : s.pc < s.mem.capacity) (ho : Opcode.ofByte (s.mem.cell s.pc) = none) :
    fetchInstr s = .error (.unknownOpcode (s.mem.cell s.pc)) (s.setPc (s.pc + 1)) := by
  simp only [fetchInstr, fetch_of_lt s h, Fetched.bind_ok, ho]

/-- Settles O3: the bytes of R65's ranges are those that select no row, and such a byte ends the fetch before its operands. -/
theorem illegalOpcodeRaisesAndFetchesNoOperand : Obligations.IllegalOpcodeRaisesAndFetchesNoOperand := by
  refine ⟨fun op rest => ?_, length_filter_ofByte_isNone, fun s hen hop => ?_⟩
  · rw [decode_eq_unknownOpcode_iff, ofByte_eq_none_iff_illegalOpcode]
  · have ⟨_, _, hpc⟩ := hen
    have hf := fetchInstr_of_ofByte_none hpc ((ofByte_eq_none_iff_illegalOpcode _).mpr hop)
    simp only [step, stopReason_eq_none.mpr hen, hf]
    rfl

end Sys2Proof.Machine
end

section
/-! PROOFS. The execution loop family: the step for each answer of the decoder, the stop tests, what execution completes and
what it latches, precise faults, and the run as an iterated step. -/

namespace Sys2Proof.Machine

/-! ### The stop tests -/

/-- A latched error is what the first test reports, and only that (40_execution_loop.md R87). -/
theorem stopReason_eq_latched {s : State} {e : MachineError} : stopReason s = some (.latched e) ↔ s.fault = some e := by
  unfold stopReason
  cases s.fault <;> cases s.halted <;> simp

/-- The halted flag is reported where nothing is latched. -/
theorem stopReason_eq_halted {s : State} : stopReason s = some .halted ↔ s.fault = none ∧ s.halted = true := by
  unfold stopReason
  cases s.fault <;> cases s.halted <;> simp

/-- The top of memory is reported where nothing is latched and the flag is clear. -/
theorem stopReason_eq_endOfMemory {s : State} :
    stopReason s = some .endOfMemory ↔ s.fault = none ∧ s.halted = false ∧ s.mem.capacity ≤ s.pc := by
  unfold stopReason
  cases s.fault <;> cases s.halted <;> simp

/-- A step is turned away for the reason the stop tests give, and for no other. -/
theorem step_eq_fault_iff {s : State} {r : Fault} : step s = .fault r ↔ stopReason s = some r :=
  ⟨stopReason_of_fault, step_of_stop⟩

/-- Settles O8: each stop is one answer of the stop tests, and a step is enabled where they give none. -/
theorem stepStopsExactlyWhenRunWould : Obligations.StepStopsExactlyWhenRunWould := by
  intro s
  refine ⟨fun e => ?_, ?_, ?_, ?_⟩
  · rw [step_eq_fault_iff, stopReason_eq_latched]
  · rw [step_eq_fault_iff, stopReason_eq_halted]
  · rw [step_eq_fault_iff, stopReason_eq_endOfMemory]
  · constructor
    · rintro ⟨t, h⟩
      exact stopReason_eq_none.mp (stopReason_of_next h)
    · exact fun hen => exists_step_of_enabled (stopReason_eq_none.mpr hen)

/-! ### Fetch, and the step it leads to -/

/-- Settles O5: the two answers of a fetch, by the bounds test of the read. -/
theorem fetchReadsThenIncrements : Obligations.FetchReadsThenIncrements :=
  fun s => ⟨fetch_of_lt s, fetch_of_ge s⟩

/-- An enabled step runs the instruction it fetches (40_execution_loop.md R85). -/
theorem step_of_fetchInstr_ok {s s' : State} {i : Instr} (hen : s.Enabled) (h : fetchInstr s = .ok i s') :
    step s = exec i s' := by
  simp only [step, stopReason_eq_none.mpr hen, h]

/-- An enabled step latches the error its fetch raises (40_execution_loop.md R89, 60_exceptions.md R166). -/
theorem step_of_fetchInstr_error {s s' : State} {e : MachineError} (hen : s.Enabled) (h : fetchInstr s = .error e s') :
    step s = .next (s'.takeError e) := by
  simp only [step, stopReason_eq_none.mpr hen, h]

/-- Where the bytes at `pc` decode, the step is that instruction's execution with `pc` past them. -/
theorem step_of_decode_ok {s : State} {i : Instr} {rest : List Byte} (hen : s.Enabled)
    (h : decode (s.mem.bytesFrom s.pc 3) = .ok (i, rest)) : step s = exec i (s.setPc (s.pc + i.length)) := by
  have ⟨_, _, hpc⟩ := hen
  have hf := fetchInstr_of_decode s hpc
  rw [h] at hf
  exact step_of_fetchInstr_ok hen hf

/-- Where the byte at `pc` is an illegal opcode, the step latches it with `pc` one past it (40_execution_loop.md R84). -/
theorem step_of_decode_unknownOpcode {s : State} {op : Byte} (hen : s.Enabled)
    (h : decode (s.mem.bytesFrom s.pc 3) = .error (.unknownOpcode op)) :
    step s = .next ((s.setPc (s.pc + 1)).takeError (.unknownOpcode op)) := by
  have ⟨_, _, hpc⟩ := hen
  have hf := fetchInstr_of_decode s hpc
  rw [h] at hf
  exact step_of_fetchInstr_error hen hf

/-- Where the operands of the opcode at `pc` are missing, the step latches the operand fetch's error with `pc` at the top of
memory (40_execution_loop.md R81). -/
theorem step_of_decode_missingOperand {s : State} {op : Byte} (hen : s.Enabled)
    (h : decode (s.mem.bytesFrom s.pc 3) = .error (.missingOperand op)) :
    step s = .next ((s.setPc s.mem.capacity).takeError (.outOfBounds s.mem.capacity)) := by
  have ⟨_, _, hpc⟩ := hen
  have hf := fetchInstr_of_decode s hpc
  rw [h] at hf
  exact step_of_fetchInstr_error hen hf

/-- Settles O6: the byte decoder and the fetch give the same instruction. -/
theorem stepRunsDecodedInstruction : Obligations.StepRunsDecodedInstruction :=
  fun _ _ _ hen hd => step_of_decode_ok hen hd

/-- A legal opcode whose instruction does not end below the capacity fails in an operand fetch: a fetch that succeeded
would have found that instruction's bytes below it. -/
theorem fetchInstr_of_past_end {s : State} {o : Opcode} (hpc : s.pc < s.mem.capacity)
    (ho : Opcode.ofByte (s.mem.cell s.pc) = some o) (hlen : s.mem.capacity < s.pc + o.format.length) :
    fetchInstr s = .error (.outOfBounds s.mem.capacity) (s.setPc s.mem.capacity) := by
  rcases fetchInstr_cases s hpc with ⟨i, -, hle, hb, -⟩ | ⟨-, hnone⟩ | ⟨hf, -⟩
  · obtain rfl : i.opcode = o := by
      rw [← hb, Opcode.ofByte_byte] at ho
      exact Option.some.inj ho
    exact absurd hlen (Nat.not_lt.mpr hle)
  · cases hnone.symm.trans ho
  · exact hf

/-- Settles O7: an enabled step's opcode fetch is inside the capacity, and the operand fetch that leaves it is the error. -/
theorem operandFetchPastEndOfMemory : Obligations.OperandFetchPastEndOfMemory := by
  intro s hen
  have ⟨_, _, hpc⟩ := hen
  exact ⟨fetch_of_lt s hpc, fun o ho hlen => step_of_fetchInstr_error hen (fetchInstr_of_past_end hpc ho hlen)⟩

/-! ### Instructions that complete -/

/-- The check of a term, operand by operand (30_encoding.md R66). -/
theorem Instr.wellFormed_iff {i : Instr} {capacity : Nat} :
    i.wellFormed capacity = true ↔
      (∀ r ∈ i.registerOperands, r.toNat < Config.nreg) ∧ ∀ a, i.addressOperand = some a → a.toNat < capacity := by
  cases h : i.addressOperand <;> simp [Instr.wellFormed, registerExists, addressExists, h]

/-- The outcome is a next state with the latch as it was in `s`: no error was taken. -/
def Completes (s : State) (o : Host.Outcome State Fault Refusal) : Prop := ∃ t, o = .next t ∧ t.fault = s.fault

/-- A result that keeps the latch completes. -/
theorem completes_settle_ok {s t : State} (h : t.fault = s.fault) : Completes s (settle s (.ok t)) := ⟨t, rfl, h⟩

/-- A binary instruction completes on indices that exist where its operation has a result. -/
theorem completes_binaryOp {f : Word → Word → Except MachineError Word} {a b : Byte} {s : State} {v : Word}
    (ha : a.toNat < Config.nreg) (hb : b.toNat < Config.nreg)
    (hf : f (s.reg ⟨a.toNat, ha⟩) (s.reg ⟨b.toNat, hb⟩) = .ok v) : Completes s (settle s (binaryOp f a b s)) := by
  rw [binaryOp_of_lt f a b s ha hb, hf]
  exact completes_settle_ok rfl

/-- Settles O34: where every register and cell named exists, only STORE's value and the divisor are left to check. -/
theorem wellFormedInstructionCompletes : Obligations.WellFormedInstructionCompletes := by
  intro i s hwf hstore hdiv
  obtain ⟨hreg, haddr⟩ := Instr.wellFormed_iff.mp hwf
  change Completes s (exec i s)
  cases i with
  | load r a =>
    have hr : r.toNat < Config.nreg := hreg r (.head _)
    simp only [exec, execLoad, address, regIndex_of_lt r hr, Memory.read_of_lt s.mem a.toNat (haddr a rfl),
      except_bind_ok]
    exact completes_settle_ok rfl
  | loadImm r v =>
    simp only [exec, execLoadImm, regIndex_of_lt r (hreg r (.head _)), except_bind_ok]
    exact completes_settle_ok rfl
  | mov d r =>
    simp only [exec, execMov, regIndex_of_lt d (hreg d (.head _)), regIndex_of_lt r (hreg r (.tail _ (.head _))),
      except_bind_ok]
    exact completes_settle_ok rfl
  | store r a =>
    have hr : r.toNat < Config.nreg := hreg r (.head _)
    rw [exec_store_of_byte r a s hr (haddr a rfl) (hstore r a hr rfl)]
    exact ⟨_, rfl, rfl⟩
  | add a b => exact completes_binaryOp (hreg a (.head _)) (hreg b (.tail _ (.head _))) rfl
  | sub a b => exact completes_binaryOp (hreg a (.head _)) (hreg b (.tail _ (.head _))) rfl
  | mul a b => exact completes_binaryOp (hreg a (.head _)) (hreg b (.tail _ (.head _))) rfl
  | div a b =>
    have hb : b.toNat < Config.nreg := hreg b (.tail _ (.head _))
    exact completes_binaryOp (hreg a (.head _)) hb (checkDivisor_of_ne _ _ _ (hdiv a b hb (.inl rfl)))
  | mod a b =>
    have hb : b.toNat < Config.nreg := hreg b (.tail _ (.head _))
    exact completes_binaryOp (hreg a (.head _)) hb (checkDivisor_of_ne _ _ _ (hdiv a b hb (.inr rfl)))
  | not a =>
    rw [exec, execNot, unaryOp_of_lt notWord a s (hreg a (.head _))]
    exact completes_settle_ok rfl
  | nop => exact completes_settle_ok rfl
  | halt => exact completes_settle_ok rfl

/-! ### What execution latches and writes -/

/-- Settles O35: an effect writes no latch, and an error taken writes nothing else. -/
theorem execLatchesErrorsAndNothingElse : Obligations.ExecLatchesErrorsAndNothingElse := by
  intro i s hs
  rcases exec_cases i s with ⟨t, ht, he⟩ | ⟨e, ht, -⟩
  · exact ⟨t, ht, .inl (he.fault.trans hs)⟩
  · exact ⟨_, ht, .inr ⟨e, rfl⟩⟩

/-- Execution leaves `pc` where the fetch put it, whether it completes or takes an error (40_execution_loop.md R89). -/
theorem exec_pc {i : Instr} {s t : State} (h : exec i s = .next t) : t.pc = s.pc := by
  rcases exec_cases i s with ⟨t', ht, he⟩ | ⟨e, ht, -⟩
  · obtain rfl : t' = t := Host.Outcome.next.inj (ht.symm.trans h)
    exact he.pc
  · obtain rfl : s.takeError e = t := Host.Outcome.next.inj (ht.symm.trans h)
    rfl

/-- The destination register is named by the first operand byte (30_encoding.md R62). -/
theorem operands_of_destByte {i : Instr} {d : Byte} (h : destByte i = some d) :
    ∃ hk : 0 < i.operands.length, i.operands[0] = d := by
  cases i <;> cases h <;> exact ⟨Nat.succ_pos _, rfl⟩

/-- The effect of an instruction without a destination register writes no register (10_state.md R21). -/
theorem Effect.regs_of_destByte_none {i : Instr} {s t : State} (h : Effect i s t) (hd : destByte i = none) :
    t.regs = s.regs := by
  cases h with
  | register _ _ r hr v hr' => cases hr'.symm.trans hd
  | cell => rfl
  | nothing => rfl
  | halted => rfl

/-- Settles O41: an effect writes at most its instruction's destination register, which the first operand byte names. -/
theorem stepWritesAtMostOneRegister : Obligations.StepWritesAtMostOneRegister := by
  intro s t h
  rcases step_next_cases h with ⟨i, -, hb, hops, he⟩ | ⟨p, e, rfl, -⟩
  · cases hd : destByte i with
    | none =>
      have hregs : t.regs = s.regs := he.regs_of_destByte_none hd
      exact ⟨fun k _ _ => by rw [hregs], fun _ => hregs⟩
    | some d =>
      obtain ⟨hr, v, rfl⟩ := he.eq_setReg hd
      obtain ⟨hlen, hfirst⟩ := operands_of_destByte hd
      have hcell : d = s.mem.cell (s.pc + 1) := hfirst.symm.trans (hops 0 hlen)
      obtain ⟨hstore, hnop, hhalt⟩ := destByte_opcode hd
      rw [hb] at hstore hnop hhalt
      rw [← hcell]
      refine ⟨fun k hk hne => State.setReg_regs_getElem_ne _ _ v k hk hne, ?_⟩
      rintro (hop | hop | hop)
      · exact absurd hop hstore
      · exact absurd hop hnop
      · exact absurd hop hhalt
  · exact ⟨fun _ _ _ => rfl, fun _ => rfl⟩

/-! ### Precise faults -/

/-- The errors of a run are those of codes 2, 3, 5, 6 and 7 (60_exceptions.md R161). -/
theorem MachineError.raisedByRun_iff_code (e : MachineError) : e.raisedByRun ↔ e.code ∈ [2, 3, 5, 6, 7] := by
  cases e <;> simp [MachineError.raisedByRun, MachineError.code]

/-- Settles O43: a step that latches has moved `pc` and taken the error, and the decoder's answer says how far `pc` moved. -/
theorem faultsArePrecise : Obligations.FaultsArePrecise := by
  intro s t e h hte
  have hen : s.Enabled := stopReason_eq_none.mp (stopReason_of_next h)
  have ⟨hfault, _, _⟩ := hen
  rcases step_next_cases h with ⟨i, -, -, -, he⟩ | ⟨p, e', rfl, -, -, -, -, hrun⟩
  · have hnone : t.fault = none := he.fault.trans hfault
    cases hnone.symm.trans hte
  · obtain rfl : e' = e := Option.some.inj hte
    refine ⟨rfl, rfl, rfl, e'.raisedByRun_iff_code.mp hrun, fun op hd => ?_, fun op hd => ?_, fun i rest hd => ?_⟩
    · have ht := Host.Outcome.next.inj (h.symm.trans (step_of_decode_unknownOpcode hen hd))
      exact ⟨Option.some.inj (congrArg State.fault ht), congrArg State.pc ht⟩
    · have ht := Host.Outcome.next.inj (h.symm.trans (step_of_decode_missingOperand hen hd))
      exact ⟨Option.some.inj (congrArg State.fault ht), congrArg State.pc ht⟩
    · exact exec_pc ((step_of_decode_ok hen hd).symm.trans h)

/-! ### The run -/

/-- An answer of the loop stays the answer under a larger bound. -/
theorem runLoop_mono {n m : Nat} {s : State} {x : RunOutcome × State} (hnm : n ≤ m) (h : runLoop n s = some x) :
    runLoop m s = some x := by
  induction n generalizing m s with
  | zero => cases h
  | succ n ih =>
    obtain ⟨m, rfl⟩ : ∃ k, m = k + 1 := Nat.exists_eq_add_of_le' (Nat.le_of_add_left_le hnm)
    cases hs : stopReason s with
    | some r =>
      rw [runLoop_of_stop n hs] at h
      rwa [runLoop_of_stop m hs]
    | none =>
      obtain ⟨s', hstep⟩ := exists_step_of_enabled hs
      rw [runLoop_of_next n hstep] at h
      rw [runLoop_of_next m hstep]
      exact ih (Nat.le_of_succ_le_succ hnm) h

/-- Every bound that `run`'s own does not exceed gives `run`'s answer. -/
theorem runLoop_eq_run {n : Nat} {s : State} (h : s.mem.capacity - s.pc + 1 ≤ n) : runLoop n s = run s := by
  obtain ⟨_, t, r, -, -, -, hrun⟩ := everyRunEndsWithinMemorySize s
  rw [hrun]
  exact runLoop_mono h hrun

/-- Settles O49: the turn the step uses up is paid for by the byte it consumes. -/
theorem runIsStepThenRun : Obligations.RunIsStepThenRun := by
  intro s t h
  obtain ⟨hlt, -, hle⟩ := everyStepAdvancesPc s t h
  have hcap := step_capacity h
  calc run s = runLoop (s.mem.capacity - s.pc) t := runLoop_of_next _ h
    _ = run t := runLoop_eq_run (by omega)

/-- Where no step is enabled, a run ends at once and reports why. -/
theorem run_of_stop {s : State} {r : Fault} (h : stopReason s = some r) : run s = some (RunOutcome.ofStop r, s) :=
  runLoop_of_stop _ h

/-- Settles O50: each of the three stops, by its test. -/
theorem stoppedMachineRunsNoStep : Obligations.StoppedMachineRunsNoStep := fun _ =>
  ⟨fun _ he => run_of_stop (stopReason_eq_latched.mpr he),
    fun hf hh => run_of_stop (stopReason_eq_halted.mpr ⟨hf, hh⟩),
    fun hf hh hpc => run_of_stop (stopReason_eq_endOfMemory.mpr ⟨hf, hh, hpc⟩)⟩

/-- A run that ends reports the stop of the state it leaves (40_execution_loop.md R87). -/
theorem stopReason_of_run {s t : State} {o : RunOutcome} (h : run s = some (o, t)) :
    ∃ r, stopReason t = some r ∧ o = RunOutcome.ofStop r := by
  obtain ⟨_, t', r, -, -, hstop, hrun⟩ := everyRunEndsWithinMemorySize s
  cases hrun.symm.trans h
  exact ⟨r, stopReason_of_fault hstop, rfl⟩

/-- Settles O51: the outcome names the stop of the final state, whose test says what that state holds. -/
theorem runOutcomeMatchesFinalState : Obligations.RunOutcomeMatchesFinalState := by
  intro s t o h
  obtain ⟨r, hr, rfl⟩ := stopReason_of_run h
  cases r with
  | halted =>
    obtain ⟨hfault, hhalted⟩ := stopReason_eq_halted.mp hr
    simp [RunOutcome.ofStop, RunOutcome.EndsWell, hfault, hhalted]
  | endOfMemory =>
    obtain ⟨hfault, hrunning, hpc⟩ := stopReason_eq_endOfMemory.mp hr
    simp [RunOutcome.ofStop, RunOutcome.EndsWell, hfault, hrunning, hpc]
  | latched e =>
    have hfault := stopReason_eq_latched.mp hr
    simp [RunOutcome.ofStop, RunOutcome.EndsWell, hfault]

end Sys2Proof.Machine
end

section
/-! PROOFS. The data transfer family: the errors every instruction checks for before its effect, what LOAD, LOAD_IMM, MOV and
STORE write, and the frame of STORE. -/

namespace Sys2Proof.Machine

/-! ### The operand fetch -/

/-- An opcode whose operands do not all lie below the capacity latches the operand fetch's error (40_execution_loop.md R81). -/
theorem operandFetchFaults (o : Opcode) : OperandFetchFaults o.byte o.format.length := by
  intro s hen hop hlen
  obtain ⟨-, hfaults⟩ := operandFetchPastEndOfMemory s hen
  exact hfaults o (by rw [hop, Opcode.ofByte_byte]) hlen

/-! ### The index errors -/

/-- The first of some register operands that names no register. -/
def firstMissing (rs : List Byte) : Option Byte := rs.find? fun r => decide (Config.nreg ≤ r.toNat)

theorem firstMissing_cons_of_ge {r : Byte} (rs : List Byte) (h : Config.nreg ≤ r.toNat) :
    firstMissing (r :: rs) = some r :=
  List.find?_cons_of_pos (decide_eq_true h)

theorem firstMissing_cons_of_lt {r : Byte} (rs : List Byte) (h : r.toNat < Config.nreg) :
    firstMissing (r :: rs) = firstMissing rs :=
  List.find?_cons_of_neg (by simpa using h)

/-- An instruction that checks one register operand before all else takes the error of one that names no register. -/
theorem settle_of_firstMissing_one {a r : Byte} (s : State) (f : Fin Config.nreg → Except MachineError State)
    (h : firstMissing [a] = some r) : settle s (regIndex a >>= f) = .next (s.takeError (.registerIndex r)) := by
  rcases regIndex_cases a with ⟨ha, -⟩ | ⟨ha, hbad⟩
  · rw [firstMissing_cons_of_lt [] ha] at h
    cases h
  · rw [firstMissing_cons_of_ge [] ha] at h
    cases h
    rw [hbad, except_bind_error, settle_error]

/-- An instruction that checks two register operands before all else takes the error of the first that names no register
(60_exceptions.md R163). -/
theorem settle_of_firstMissing_two {a b r : Byte} (s : State)
    (f : Fin Config.nreg → Fin Config.nreg → Except MachineError State) (h : firstMissing [a, b] = some r) :
    settle s (regIndex a >>= fun i => regIndex b >>= f i) = .next (s.takeError (.registerIndex r)) := by
  rcases regIndex_cases a with ⟨ha, hok⟩ | ⟨ha, -⟩
  · rw [firstMissing_cons_of_lt [b] ha] at h
    rw [hok, except_bind_ok]
    exact settle_of_firstMissing_one s _ h
  · rw [firstMissing_cons_of_ge [b] ha, ← firstMissing_cons_of_ge [] ha] at h
    exact settle_of_firstMissing_one s _ h

/-- Every instruction takes the error of its first register operand that names no register, whatever else is wrong with it
(60_exceptions.md R163). -/
theorem exec_of_firstMissing {i : Instr} {r : Byte} (s : State) (h : firstMissing i.registerOperands = some r) :
    exec i s = .next (s.takeError (.registerIndex r)) := by
  cases i with
  | load | loadImm | store | not => exact settle_of_firstMissing_one s _ h
  | mov | add | sub | mul | div | mod => exact settle_of_firstMissing_two s _ h
  | nop | halt => cases h

/-- An instruction whose first operand is a register index has that operand's index error. -/
theorem indexError_of_registerOperands {i : Instr} {r : Byte} {rs : List Byte} (h : i.registerOperands = r :: rs) :
    IndexError r i :=
  fun s hr => exec_of_firstMissing s (h ▸ firstMissing_cons_of_ge rs hr)

/-- An instruction with two register operands has their index errors, in operand order. -/
theorem indexErrorsInOrder_of_registerOperands {i : Byte → Byte → Instr} (h : ∀ a b, (i a b).registerOperands = [a, b]) :
    IndexErrorsInOrder i := by
  refine fun a b s => ⟨indexError_of_registerOperands (h a b) s, fun ha hb => exec_of_firstMissing s ?_⟩
  rw [h a b, firstMissing_cons_of_lt [b] ha, firstMissing_cons_of_ge [] hb]

/-! ### The address error and the value error -/

/-- Where its register exists, LOAD or STORE takes the error of an address that names no cell (60_exceptions.md R163). -/
theorem exec_of_missing_address {i : Instr} {a : Byte} {s : State} (hreg : ∀ r ∈ i.registerOperands, r.toNat < Config.nreg)
    (haddr : i.addressOperand = some a) (ha : s.mem.capacity ≤ a.toNat) :
    exec i s = .next (s.takeError (.outOfBounds a.toNat)) := by
  cases i with
  | load r a' =>
    cases haddr
    simp only [exec, execLoad, address, regIndex_of_lt r (hreg r (.head _)), s.mem.read_of_ge a.toNat ha,
      except_bind_ok, except_bind_error, settle_error]
  | store r a' =>
    cases haddr
    have hout : (s.mem.capacity : Int) ≤ a.toNat := Int.ofNat_le.mpr ha
    simp only [exec, execStore, address, regIndex_of_lt r (hreg r (.head _)),
      s.mem.write_of_outside a.toNat _ (.inr hout), except_bind_ok, except_bind_error, settle_error]
  | loadImm | mov | add | sub | mul | div | mod | not | nop | halt => cases haddr

/-- Where its register and its cell exist, STORE takes the error of a value that is no byte (41_data_transfer.md R103). -/
theorem exec_store_of_no_byte (r a : Byte) (s : State) (hr : r.toNat < Config.nreg) (ha : a.toNat < s.mem.capacity)
    (hv : 256 ≤ (s.regs[r.toNat]).toNat) :
    exec (.store r a) s = .next (s.takeError (.valueRange (s.regs[r.toNat]).toNat)) := by
  have hbad := s.mem.write_of_no_byte a.toNat (s.regs[r.toNat]).toNat (Int.natCast_nonneg _) (Int.ofNat_lt.mpr ha)
    (.inr (Int.ofNat_le.mpr hv))
  simp only [exec, execStore, address, storeValue, regIndex_of_lt r hr, State.reg_eq_getElem, hbad, except_bind_ok,
    except_bind_error, settle_error]

/-! ### The instructions that complete -/

/-- LOAD from a cell that exists (41_data_transfer.md R100). -/
theorem exec_load_of_lt (r a : Byte) (s : State) (hr : r.toNat < Config.nreg) (ha : a.toNat < s.mem.capacity) :
    exec (.load r a) s = .next (s.setReg ⟨r.toNat, hr⟩ (zeroExtend (s.mem.cell a.toNat))) := by
  simp only [exec, execLoad, address, regIndex_of_lt r hr, s.mem.read_of_lt a.toNat ha, except_bind_ok, except_pure,
    settle_ok]

/-- LOAD_IMM to a register that exists (41_data_transfer.md R101). -/
theorem exec_loadImm_of_lt (r v : Byte) (s : State) (hr : r.toNat < Config.nreg) :
    exec (.loadImm r v) s = .next (s.setReg ⟨r.toNat, hr⟩ (zeroExtend v)) := by
  simp only [exec, execLoadImm, regIndex_of_lt r hr, except_bind_ok, except_pure, settle_ok]

/-- MOV between registers that exist (41_data_transfer.md R102). -/
theorem exec_mov_of_lt (d r : Byte) (s : State) (hd : d.toNat < Config.nreg) (hr : r.toNat < Config.nreg) :
    exec (.mov d r) s = .next (s.setReg ⟨d.toNat, hd⟩ (s.reg ⟨r.toNat, hr⟩)) := by
  simp only [exec, execMov, regIndex_of_lt d hd, regIndex_of_lt r hr, except_bind_ok, except_pure, settle_ok]

/-- Writing a register's own value to it changes nothing. -/
@[simp] theorem State.setReg_reg_self (s : State) (i : Fin Config.nreg) : s.setReg i (s.reg i) = s :=
  State.eq_of_fields (Vector.set_getElem_self i.isLt) rfl rfl rfl rfl

/-- A word below 256 is its low byte zero-extended (20_memory.md R51). -/
theorem zeroExtend_setWidth_of_lt {v : Word} (h : v.toNat < 256) : zeroExtend (v.setWidth 8) = v := by
  apply BitVec.eq_of_toNat_eq
  rw [zeroExtend, BitVec.toNat_setWidth, BitVec.toNat_setWidth, Nat.mod_eq_of_lt (a := v.toNat) h,
    Nat.mod_eq_of_lt v.isLt]

/-- All a STORE can do: set the cell its address operand names, or take an error (41_data_transfer.md R103). -/
theorem exec_store_cases {r a : Byte} {s t : State} (h : exec (.store r a) s = .next t) :
    (∃ b, t = s.setMem (s.mem.setCell a.toNat b)) ∨ ∃ e, t = s.takeError e := by
  rcases exec_cases (.store r a) s with ⟨t', ht, he⟩ | ⟨e, ht, -⟩
  · obtain rfl : t' = t := Host.Outcome.next.inj (ht.symm.trans h)
    cases he with
    | register _ _ _ _ _ hd => cases hd
    | cell _ _ _ _ _ b => exact .inl ⟨b, rfl⟩
  · exact .inr ⟨e, (Host.Outcome.next.inj (ht.symm.trans h)).symm⟩

/-! ### The statements -/

/-- Settles O18: LOAD reads the low byte STORE has just set, and a byte value is its low byte zero-extended. -/
theorem storeThenLoadCopiesRegister : Obligations.StoreThenLoadCopiesRegister := by
  intro r d a s hr hd hwf ha hv
  refine ⟨_, _, exec_store_of_byte r a s hr ha hv, exec_load_of_lt d a _ hd ha, ?_, rfl, rfl, rfl⟩
  rw [State.setReg_regs, State.setMem_regs, State.setMem_mem, s.mem.cell_setCell_same a.toNat _ hwf,
    zeroExtend_setWidth_of_lt hv]

/-- Settles O37: a STORE sets the one cell or takes an error. -/
theorem storeFrame : Obligations.StoreFrame := by
  intro r a s t h
  rcases exec_store_cases h with ⟨b, rfl⟩ | ⟨e, rfl⟩
  · refine ⟨rfl, rfl, rfl, rfl, fun x hx => ?_, .inl rfl⟩
    exact s.mem.cell_setCell_ne a.toNat x b fun e => hx (congrArg Nat.cast e)
  · exact ⟨rfl, rfl, rfl, rfl, fun _ _ => rfl, .inr ⟨e, rfl⟩⟩

/-- Settles O14: one lemma for each answer of LOAD. -/
theorem loadReadsByteZeroExtended : Obligations.LoadReadsByteZeroExtended :=
  ⟨fun _ _ => rfl, exec_load_of_lt, fun _ _ => indexError_of_registerOperands rfl,
    fun _ _ _ hr ha => exec_of_missing_address (List.forall_mem_singleton.mpr hr) rfl ha, operandFetchFaults .load⟩

/-- Settles O15: one lemma for each answer of LOAD_IMM. -/
theorem loadImmWritesZeroExtendedImmediate : Obligations.LoadImmWritesZeroExtendedImmediate :=
  ⟨fun _ _ => rfl, exec_loadImm_of_lt, fun _ _ => indexError_of_registerOperands rfl, operandFetchFaults .loadImm⟩

/-- Settles O16: one lemma for each answer of MOV; a register copied to itself is a write of its own value. -/
theorem movCopiesAllBits : Obligations.MovCopiesAllBits := by
  refine ⟨fun _ _ => rfl, exec_mov_of_lt, fun d s hd => ?_,
    indexErrorsInOrder_of_registerOperands fun _ _ => rfl, operandFetchFaults .mov⟩
  rw [exec_mov_of_lt d d s hd hd, State.setReg_reg_self]

/-- Settles O17: one lemma for each answer of STORE; the cell takes the register's low byte, which is its whole value. -/
theorem storeWritesByteOrFaults : Obligations.StoreWritesByteOrFaults := by
  refine ⟨fun _ _ => rfl, fun r a s hr ha hv => ?_, fun _ _ => indexError_of_registerOperands rfl,
    fun _ _ _ hr ha => exec_of_missing_address (List.forall_mem_singleton.mpr hr) rfl ha, exec_store_of_no_byte,
    operandFetchFaults .store⟩
  refine ⟨_, exec_store_of_byte r a s hr ha hv, rfl, fun hwf => ?_, fun x hx => s.mem.cell_setCell_ne a.toNat x _ hx⟩
  rw [s.mem.cell_setCell_same a.toNat _ hwf, BitVec.toNat_setWidth, Nat.mod_eq_of_lt hv]

end Sys2Proof.Machine
end

section
/-! PROOFS. The arithmetic family: the words ADD, SUB, MUL, DIV and MOD compute as the operations of 32-bit vectors, the answers
of the shape they share, and the laws of signed division. -/

namespace Sys2Proof.Machine

/-! ### The words of ADD, SUB and MUL -/

/-- The sum reduced at the end is the wrapping sum (42_arithmetic.md R125). -/
theorem addWords_eq_add (x y : Word) : addWords x y = x + y := by
  simp only [addWords, BitVec.ofNat_add, BitVec.ofNat_toNat, BitVec.setWidth_eq]

/-- The difference reduced at the end is the wrapping difference (R125). -/
theorem subWords_eq_sub (x y : Word) : subWords x y = x - y := by
  simp only [subWords, Int.sub_eq_add_neg, BitVec.ofInt_add, BitVec.ofInt_neg, BitVec.ofInt_natCast, BitVec.ofNat_toNat,
    BitVec.setWidth_eq, BitVec.sub_eq_add_neg]

/-- The product reduced at the end is the wrapping product (R125). -/
theorem mulWords_eq_mul (x y : Word) : mulWords x y = x * y := by
  simp only [mulWords, BitVec.ofNat_mul, BitVec.ofNat_toNat, BitVec.setWidth_eq]

/-- The sum of the signed readings has the same pattern (R125). -/
theorem addWords_eq_ofInt_toInt (x y : Word) : addWords x y = BitVec.ofInt 32 (x.toInt + y.toInt) := by
  rw [addWords_eq_add, BitVec.ofInt_add, BitVec.ofInt_toInt, BitVec.ofInt_toInt]

/-- The difference of the signed readings has the same pattern (R125). -/
theorem subWords_eq_ofInt_toInt (x y : Word) : subWords x y = BitVec.ofInt 32 (x.toInt - y.toInt) := by
  rw [subWords_eq_sub, Int.sub_eq_add_neg, BitVec.ofInt_add, BitVec.ofInt_neg, BitVec.ofInt_toInt, BitVec.ofInt_toInt,
    BitVec.sub_eq_add_neg]

/-- The product of the signed readings has the same pattern (R125). -/
theorem mulWords_eq_ofInt_toInt (x y : Word) : mulWords x y = BitVec.ofInt 32 (x.toInt * y.toInt) := by
  rw [mulWords_eq_mul, BitVec.ofInt_mul, BitVec.ofInt_toInt, BitVec.ofInt_toInt]

/-! ### The words of DIV and MOD -/

/-- The truncated quotient reduced at the end is the signed division of 32-bit vectors (R126). -/
theorem divWords_eq_sdiv (x y : Word) : divWords x y = x.sdiv y := by
  apply BitVec.eq_of_toInt_eq
  rw [divWords, truncQuotient, BitVec.toInt_ofInt, BitVec.toInt_sdiv]

/-- What the truncated quotient leaves over is the signed remainder of 32-bit vectors, which needs no reduction (R126). -/
theorem modWords_eq_srem (x y : Word) : modWords x y = x.srem y := by
  rw [modWords, truncQuotient, Int.mul_comm, ← Int.tmod_def, ← BitVec.toInt_srem, BitVec.ofInt_toInt]

/-- MOD's result, read signed, is the remainder of the division toward zero. -/
theorem toInt_modWords (x y : Word) : (modWords x y).toInt = x.toInt.tmod y.toInt := by
  rw [modWords_eq_srem, BitVec.toInt_srem]

/-- DIV's result, read signed, is the quotient toward zero, but for the one pair whose quotient is no 32-bit number (R126). -/
theorem toInt_divWords {x y : Word} (h : ¬ (x.toInt = -2 ^ 31 ∧ y.toInt = -1)) :
    (divWords x y).toInt = x.toInt.tdiv y.toInt := by
  rw [divWords_eq_sdiv, BitVec.toInt_sdiv_of_ne_or_ne]
  by_contra! hxy
  obtain ⟨rfl, rfl⟩ := hxy
  exact h (by decide)

/-- The one overflowing division gives the dividend back, with remainder 0 (R126). -/
theorem divWords_modWords_of_overflow {x y : Word} (hx : x.toInt = -2 ^ 31) (hy : y.toInt = -1) :
    divWords x y = 0x80000000 ∧ modWords x y = 0 := by
  obtain rfl : x = 0x80000000 := BitVec.eq_of_toInt_eq hx
  obtain rfl : y = -1 := BitVec.eq_of_toInt_eq hy
  decide

/-- The remainder toward zero is smaller in size than its divisor. -/
theorem abs_tmod_lt (x : Int) {y : Int} (h : y ≠ 0) : |x.tmod y| < |y| := by
  rw [Int.abs_eq_natAbs, Int.abs_eq_natAbs, Int.natAbs_tmod]
  exact Int.ofNat_lt.mpr (Nat.mod_lt _ (Int.natAbs_pos.mpr h))

/-- The remainder toward zero is 0 or has the sign of the dividend. -/
theorem tmod_eq_zero_or_sign (x y : Int) : x.tmod y = 0 ∨ (x.tmod y).sign = x.sign := by
  by_cases h : y ∣ x
  · exact .inl (Int.tmod_eq_zero_of_dvd h)
  · exact .inr (by rw [Int.sign_tmod, if_neg h])

/-! ### The instructions on registers that exist -/

section
variable {a b : Byte} {s : State} {v : Word} (ha : a.toNat < Config.nreg) (hb : b.toNat < Config.nreg)

/-- A binary instruction whose operation has a result writes it to the first operand's register. -/
theorem settle_binaryOp_of_ok {f : Word → Word → Except MachineError Word}
    (hv : f s.regs[a.toNat] s.regs[b.toNat] = .ok v) :
    settle s (binaryOp f a b s) = .next (s.setReg ⟨a.toNat, ha⟩ v) := by
  rw [binaryOp_of_lt f a b s ha hb, State.reg_eq_getElem, State.reg_eq_getElem, hv]
  rfl

/-- A binary instruction whose operation is an error latches it. -/
theorem settle_binaryOp_of_error {f : Word → Word → Except MachineError Word} {e : MachineError}
    (he : f s.regs[a.toNat] s.regs[b.toNat] = .error e) : settle s (binaryOp f a b s) = .next (s.takeError e) := by
  rw [binaryOp_of_lt f a b s ha hb, State.reg_eq_getElem, State.reg_eq_getElem, he]
  rfl

/-- ADD (42_arithmetic.md R120). -/
theorem exec_add_of_lt (hv : addWords s.regs[a.toNat] s.regs[b.toNat] = v) :
    exec (.add a b) s = .next (s.setReg ⟨a.toNat, ha⟩ v) :=
  settle_binaryOp_of_ok ha hb (congrArg Except.ok hv)

/-- SUB (R121). -/
theorem exec_sub_of_lt (hv : subWords s.regs[a.toNat] s.regs[b.toNat] = v) :
    exec (.sub a b) s = .next (s.setReg ⟨a.toNat, ha⟩ v) :=
  settle_binaryOp_of_ok ha hb (congrArg Except.ok hv)

/-- MUL (R122). -/
theorem exec_mul_of_lt (hv : mulWords s.regs[a.toNat] s.regs[b.toNat] = v) :
    exec (.mul a b) s = .next (s.setReg ⟨a.toNat, ha⟩ v) :=
  settle_binaryOp_of_ok ha hb (congrArg Except.ok hv)

/-- DIV by a divisor that is not 0 (R123). -/
theorem exec_div_of_ne (hne : s.regs[b.toNat] ≠ 0) (hv : divWords s.regs[a.toNat] s.regs[b.toNat] = v) :
    exec (.div a b) s = .next (s.setReg ⟨a.toNat, ha⟩ v) :=
  settle_binaryOp_of_ok ha hb ((checkDivisor_of_ne _ _ _ hne).trans (congrArg Except.ok hv))

/-- MOD by a divisor that is not 0 (R124). -/
theorem exec_mod_of_ne (hne : s.regs[b.toNat] ≠ 0) (hv : modWords s.regs[a.toNat] s.regs[b.toNat] = v) :
    exec (.mod a b) s = .next (s.setReg ⟨a.toNat, ha⟩ v) :=
  settle_binaryOp_of_ok ha hb ((checkDivisor_of_ne _ _ _ hne).trans (congrArg Except.ok hv))

include ha in
/-- DIV and MOD by a divisor of 0, whatever the dividend (R123, R124). -/
theorem exec_div_mod_of_zero (hzero : s.regs[b.toNat] = 0) :
    exec (.div a b) s = .next (s.takeError .divisionByZero) ∧
      exec (.mod a b) s = .next (s.takeError .divisionByZero) := by
  have herr (f : Word → Word → Word) : checkDivisor f s.regs[a.toNat] s.regs[b.toNat] = .error .divisionByZero := by
    rw [hzero, checkDivisor_zero]
  exact ⟨settle_binaryOp_of_error ha hb (herr divWords), settle_binaryOp_of_error ha hb (herr modWords)⟩

end

/-! ### The statements -/

/-- Settles O25: each word is the reduced result of the signed readings and the wrapping operation. -/
theorem addSubMulAgreeInBothReadings : Obligations.AddSubMulAgreeInBothReadings := fun _ _ _ ha hb =>
  ⟨⟨exec_add_of_lt ha hb (addWords_eq_ofInt_toInt _ _), exec_add_of_lt ha hb (addWords_eq_add _ _)⟩,
    ⟨exec_sub_of_lt ha hb (subWords_eq_ofInt_toInt _ _), exec_sub_of_lt ha hb (subWords_eq_sub _ _)⟩,
    ⟨exec_mul_of_lt ha hb (mulWords_eq_ofInt_toInt _ _), exec_mul_of_lt ha hb (mulWords_eq_mul _ _)⟩⟩

/-- Settles O26: the laws of the division toward zero, carried over by the signed readings of quotient and remainder. -/
theorem divisionLawsHoldForEveryOperand : Obligations.DivisionLawsHoldForEveryOperand := by
  intro a b s ha hb hne
  refine ⟨_, _, exec_div_of_ne ha hb hne rfl, exec_mod_of_ne ha hb hne rfl, ?_⟩
  simp only [toInt_modWords]
  have hdivisor : (s.regs[b.toNat]).toInt ≠ 0 := fun h => hne (BitVec.eq_of_toInt_eq h)
  exact ⟨(Int.tdiv_mul_add_tmod _ _).symm, abs_tmod_lt _ hdivisor, tmod_eq_zero_or_sign _ _, toInt_divWords,
    fun ⟨hx, hy⟩ => divWords_modWords_of_overflow hx hy⟩

/-- Settles O27: the reduced quotient and remainder are those of 32-bit vectors. -/
theorem divAndModAreSignedWordDivision : Obligations.DivAndModAreSignedWordDivision := fun _ _ _ ha hb hne =>
  ⟨exec_div_of_ne ha hb hne (divWords_eq_sdiv _ _), exec_mod_of_ne ha hb hne (modWords_eq_srem _ _)⟩

/-- Settles O20: one lemma for each answer of ADD. -/
theorem addWrapsModuloWordSize : Obligations.AddWrapsModuloWordSize :=
  ⟨fun _ _ => rfl, fun _ _ _ ha hb => exec_add_of_lt ha hb rfl,
    indexErrorsInOrder_of_registerOperands fun _ _ => rfl, operandFetchFaults .add⟩

/-- Settles O21: one lemma for each answer of SUB. -/
theorem subWrapsModuloWordSize : Obligations.SubWrapsModuloWordSize :=
  ⟨fun _ _ => rfl, fun _ _ _ ha hb => exec_sub_of_lt ha hb rfl,
    indexErrorsInOrder_of_registerOperands fun _ _ => rfl, operandFetchFaults .sub⟩

/-- Settles O22: one lemma for each answer of MUL. -/
theorem mulKeepsLowHalfOfProduct : Obligations.MulKeepsLowHalfOfProduct :=
  ⟨fun _ _ => rfl, fun _ _ _ ha hb => exec_mul_of_lt ha hb rfl,
    indexErrorsInOrder_of_registerOperands fun _ _ => rfl, operandFetchFaults .mul⟩

/-- Settles O23: one lemma for each answer of DIV. -/
theorem divTruncatesOrFaultsOnZero : Obligations.DivTruncatesOrFaultsOnZero :=
  ⟨fun _ _ => rfl, fun _ _ _ ha hb hne => exec_div_of_ne ha hb hne rfl,
    indexErrorsInOrder_of_registerOperands fun _ _ => rfl,
    fun _ _ _ ha hb hzero => (exec_div_mod_of_zero ha hb hzero).left, operandFetchFaults .div⟩

/-- Settles O24: one lemma for each answer of MOD. -/
theorem modTakesSignOfDividendOrFaultsOnZero : Obligations.ModTakesSignOfDividendOrFaultsOnZero :=
  ⟨fun _ _ => rfl, fun _ _ _ ha hb hne => exec_mod_of_ne ha hb hne rfl,
    indexErrorsInOrder_of_registerOperands fun _ _ => rfl,
    fun _ _ _ ha hb hzero => (exec_div_mod_of_zero ha hb hzero).right, operandFetchFaults .mod⟩

/-- Settles O28: the rows are evaluated, and DIV and MOD compute the two words the rows are about. -/
theorem divisionTableOfEverySign : Obligations.DivisionTableOfEverySign :=
  ⟨by decide, fun _ _ _ ha hb hne => ⟨exec_div_of_ne ha hb hne rfl, exec_mod_of_ne ha hb hne rfl⟩,
    fun _ _ _ ha hb hzero => exec_div_mod_of_zero ha hb hzero⟩

/-- Settles O29: the word operations on two equal operands. -/
theorem sameRegisterAsBothOperands : Obligations.SameRegisterAsBothOperands := by
  intro a s ha
  refine ⟨exec_add_of_lt ha ha ?_, exec_sub_of_lt ha ha ?_, exec_mul_of_lt ha ha (mulWords_eq_mul _ _), fun hne =>
    ⟨exec_div_of_ne ha ha hne ?_, exec_mod_of_ne ha ha hne ?_⟩⟩
  · exact (addWords_eq_add _ _).trans BitVec.two_mul.symm
  · exact (subWords_eq_sub _ _).trans (BitVec.sub_self _)
  · rw [divWords_eq_sdiv, BitVec.sdiv_self, if_neg (by simpa using hne)]
    rfl
  · exact (modWords_eq_srem _ _).trans BitVec.srem_self

end Sys2Proof.Machine
end

section
/-! PROOFS. The logic family: the word NOT computes in its signed and unsigned readings, and NOT as its own inverse. -/

namespace Sys2Proof.Machine

/-! ### The word of NOT -/

/-- Every bit of the complement is the inverse of the operand's, the high ones included (43_logic.md R140). -/
theorem getElem_notWord (x : Word) (k : Fin Config.xlen) : (notWord x)[k] = !x[k] := by
  simp only [notWord, Fin.getElem_fin, BitVec.getElem_not]

/-- The complement read signed is the negated operand less one (R140). -/
theorem toInt_notWord (x : Word) : (notWord x).toInt = -x.toInt - 1 := by
  rw [notWord, BitVec.toInt_eq_toNat_cond, BitVec.toInt_eq_toNat_cond, BitVec.toNat_not]
  omega

/-- The complement of a byte value is no byte value, since its high bits are set (R140). -/
theorem le_toNat_notWord_of_lt {x : Word} (h : x.toNat < 256) : 256 ≤ (notWord x).toNat := by
  rw [notWord, BitVec.toNat_not]
  omega

/-- The complement is its own inverse (R140). -/
@[simp] theorem notWord_notWord (x : Word) : notWord (notWord x) = x := BitVec.not_not

/-! ### The instruction on a register that exists -/

/-- Of two writes to one register the second alone stays. -/
@[simp] theorem State.setReg_setReg_same (s : State) (i : Fin Config.nreg) (v w : Word) :
    (s.setReg i v).setReg i w = s.setReg i w :=
  State.eq_of_fields (Vector.set_set _ i.isLt) rfl rfl rfl rfl

/-- NOT (43_logic.md R140). -/
theorem exec_not_of_lt (a : Byte) (s : State) (ha : a.toNat < Config.nreg) :
    exec (.not a) s = .next (s.setReg ⟨a.toNat, ha⟩ (notWord (s.reg ⟨a.toNat, ha⟩))) := by
  rw [exec, execNot, unaryOp_of_lt notWord a s ha, settle_ok]

/-- NOT on the register it has complemented gives back the state before (R140). -/
theorem exec_not_setReg_notWord (a : Byte) (s : State) (ha : a.toNat < Config.nreg) :
    exec (.not a) (s.setReg ⟨a.toNat, ha⟩ (notWord (s.reg ⟨a.toNat, ha⟩))) = .next s := by
  rw [exec_not_of_lt a _ ha, State.reg_setReg_same, notWord_notWord, State.setReg_setReg_same, State.setReg_reg_self]

/-! ### The statement -/

/-- Settles O30: the word NOT writes is the register's complement, whose laws are those of the 32-bit complement. -/
theorem notComplementsEveryBit : Obligations.NotComplementsEveryBit := by
  refine ⟨fun _ => rfl, fun a s ha => ?_, fun _ => indexError_of_registerOperands rfl, operandFetchFaults .not⟩
  exact ⟨notWord s.regs[a.toNat], exec_not_of_lt a s ha, getElem_notWord _, toInt_notWord _, le_toNat_notWord_of_lt,
    exec_not_setReg_notWord a s ha⟩

end Sys2Proof.Machine
end

section
/-! PROOFS. The control family: NOP and HALT executed and stepped to, the runs they end, and their frame. -/

namespace Sys2Proof.Machine

/-! ### Execution -/

/-- NOP (44_control.md R150). -/
theorem exec_nop (s : State) : exec .nop s = .next s := rfl

/-- HALT (44_control.md R151). -/
theorem exec_halt (s : State) : exec .halt s = .next (s.setHalted true) := rfl

/-! ### The step -/

/-- Where the opcode at `pc` is that of an instruction without operands, the step runs it with `pc` one past it
(40_execution_loop.md R85): whatever byte follows is not looked at. -/
theorem step_of_operands_nil {s : State} {i : Instr} (hen : s.Enabled) (hi : i.operands = [])
    (hop : s.mem.cell s.pc = i.opcode.byte) : step s = exec i (s.setPc (s.pc + 1)) := by
  have ⟨_, _, hpc⟩ := hen
  have henc : encode i = [i.opcode.byte] := congrArg (List.cons i.opcode.byte) hi
  have hlen : i.length = 1 := by rw [← encode_length, henc, List.length_singleton]
  have hbytes : s.mem.bytesFrom s.pc 3 = encode i ++ s.mem.bytesFrom (s.pc + 1) 2 := by
    rw [s.mem.bytesFrom_succ s.pc 2 hpc, hop, henc, List.singleton_append]
  have hd : decode (s.mem.bytesFrom s.pc 3) = .ok (i, s.mem.bytesFrom (s.pc + 1) 2) := by
    rw [hbytes, decode_encode_append]
  rw [step_of_decode_ok hen hd, hlen]

/-- A step at NOP's opcode moves `pc` past it (44_control.md R150). -/
theorem step_of_nop {s : State} (hen : s.Enabled) (hop : s.mem.cell s.pc = 0xFE) :
    step s = .next (s.setPc (s.pc + 1)) :=
  (step_of_operands_nil (i := .nop) hen rfl hop).trans (exec_nop _)

/-- A step at HALT's opcode moves `pc` past it and sets the flag (44_control.md R151). -/
theorem step_of_halt {s : State} (hen : s.Enabled) (hop : s.mem.cell s.pc = 0xFF) :
    step s = .next ((s.setPc (s.pc + 1)).setHalted true) :=
  (step_of_operands_nil (i := .halt) hen rfl hop).trans (exec_halt _)

/-! ### The run -/

/-- A run whose first step reaches a stop reports that stop. -/
theorem run_of_step_of_stop {s t : State} {r : Fault} (h : step s = .next t) (hstop : stopReason t = some r) :
    run s = some (RunOutcome.ofStop r, t) :=
  (runIsStepThenRun s t h).trans (run_of_stop hstop)

/-- `loadProgram` does not touch the halted flag, whether it loads or fails (44_control.md R151). -/
theorem loadProgram_halted (bytes : List Int) (s : State) : (loadProgram bytes s).2.halted = s.halted := by
  rcases loadProgram_cases bytes s with ⟨-, h⟩ | ⟨-, _, -, h⟩ | ⟨-, _, _, -, h⟩ <;> rw [h]
  · rw [State.setPc_halted, State.setMem_halted]
  · rw [State.setMem_halted]

/-! ### The statements -/

/-- Settles O31: the step keeps latch and flag clear, so with `pc` at the capacity only the third stop test holds. -/
theorem nopHasNoEffect : Obligations.NopHasNoEffect := by
  refine ⟨rfl, exec_nop, fun s hen hop => ⟨step_of_nop hen hop, fun htop => ?_⟩⟩
  have ⟨hfault, hrunning, _⟩ := hen
  exact run_of_step_of_stop (step_of_nop hen hop) (stopReason_eq_endOfMemory.mpr ⟨hfault, hrunning, htop.ge⟩)

/-- Settles O32: the state after HALT's step is halted with nothing latched, and every run from such a state ends at once. -/
theorem haltSetsTheFlagAndEndsTheRun : Obligations.HaltSetsTheFlagAndEndsTheRun := by
  refine ⟨rfl, exec_halt, fun s hen hop => ⟨step_of_halt hen hop, ?_⟩, fun s hfault hhalted => ?_,
    loadProgram_halted, State.resetCpu_halted⟩
  · have ⟨hfault, _, _⟩ := hen
    exact run_of_step_of_stop (step_of_halt hen hop) (stopReason_eq_halted.mpr ⟨hfault, rfl⟩)
  · exact run_of_stop (stopReason_eq_halted.mpr ⟨hfault, hhalted⟩)

/-- Settles O38: NOP ends in the state it starts from, HALT in that state with the flag set. -/
theorem controlInstructionsFrame : Obligations.ControlInstructionsFrame := by
  rintro i s t (rfl | rfl) h
  · obtain rfl : s = t := Host.Outcome.next.inj ((exec_nop s).symm.trans h)
    exact ⟨rfl, rfl, rfl, rfl, fun _ => rfl, fun _ => rfl⟩
  · obtain rfl : s.setHalted true = t := Host.Outcome.next.inj ((exec_halt s).symm.trans h)
    exact ⟨rfl, rfl, rfl, rfl, fun _ => rfl, nofun⟩

end Sys2Proof.Machine
end

section
/-! PROOFS. The exceptions family: the order of one instruction's checks, what the host's transactions keep of latch, flag and
registers, and the codes of the errors. -/

namespace Sys2Proof.Machine

/-! ### The order of the checks -/

/-- An enabled step at a byte that selects no row latches its error, before any operand is fetched (40_execution_loop.md R84). -/
theorem step_of_ofByte_none {s : State} (hen : s.Enabled) (ho : Opcode.ofByte (s.mem.cell s.pc) = none) :
    step s = .next ((s.setPc (s.pc + 1)).takeError (.unknownOpcode (s.mem.cell s.pc))) := by
  have ⟨_, _, hpc⟩ := hen
  exact step_of_fetchInstr_error hen (fetchInstr_of_ofByte_none hpc ho)

/-- Settles O33: one lemma for each check, which assumes that the checks before it have passed. -/
theorem firstFailingCheckIsReported : Obligations.FirstFailingCheckIsReported :=
  ⟨fun _ => step_of_ofByte_none, fun s o hen => (operandFetchPastEndOfMemory s hen).right o,
    fun _ s _ => exec_of_firstMissing s, fun _ _ _ => exec_of_missing_address, exec_store_of_no_byte,
    fun _ _ _ ha hb hzero => exec_div_mod_of_zero ha hb hzero⟩

/-! ### What the host's transactions keep -/

/-- All a transaction other than `reset` and `run` can do to the state: give it another memory and another `pc`. -/
theorem hostOp_eq_setMem_setPc {op : HostOp} (s : State) (hreset : op ≠ .reset) (hrun : op ≠ .run) :
    ∃ m p, (hostOp op s).2 = (s.setMem m).setPc p := by
  cases op with
  | write addr v =>
    rcases hostWrite_cases addr v s with ⟨m, -, h⟩ | ⟨e, -, h⟩
    · exact ⟨m, s.pc, congrArg Prod.snd h⟩
    · exact ⟨s.mem, s.pc, congrArg Prod.snd h⟩
  | bulkLoad addr vs => exact ⟨(s.mem.writeAll addr vs).1, s.pc, hostBulkLoad_snd addr vs s⟩
  | loadProgram bytes =>
    rcases loadProgram_cases bytes s with ⟨-, h⟩ | ⟨-, m, -, h⟩ | ⟨-, m, e, -, h⟩
    · exact ⟨s.mem, s.pc, congrArg Prod.snd h⟩
    · exact ⟨m, 0, congrArg Prod.snd h⟩
    · exact ⟨m, s.pc, congrArg Prod.snd h⟩
  | reset => exact absurd rfl hreset
  | run => exact absurd rfl hrun
  | read | size | view | getRegisters | isHalted | status => exact ⟨s.mem, s.pc, rfl⟩

/-- A `run` transaction on a machine that takes no step leaves it as it is. -/
theorem hostOp_run_of_stop {s : State} {r : Fault} (h : stopReason s = some r) : (hostOp .run s).2 = s := by
  simp only [hostOp, hostRun, run_of_stop h]

/-- A halted machine takes no step, whatever is latched (44_control.md R154). -/
theorem exists_stopReason_of_halted {s : State} (h : s.halted = true) : ∃ r, stopReason s = some r := by
  cases hs : stopReason s with
  | some r => exact ⟨r, rfl⟩
  | none =>
    obtain ⟨-, hrunning, -⟩ := stopReason_eq_none.mp hs
    cases h.symm.trans hrunning

/-- Settles O59: `run` takes no step where an error is latched or the flag is set, and the others write only memory and `pc`. -/
theorem onlyResetLeavesFaultOrHalted : Obligations.OnlyResetLeavesFaultOrHalted := by
  intro op s hreset
  by_cases hrun : op = .run
  · subst hrun
    refine ⟨fun e he => ?_, fun hh => ?_, fun hne => absurd rfl hne⟩
    · rw [hostOp_run_of_stop (stopReason_eq_latched.mpr he), he]
    · obtain ⟨r, hr⟩ := exists_stopReason_of_halted hh
      rw [hostOp_run_of_stop hr, hh]
  · obtain ⟨m, p, h⟩ := hostOp_eq_setMem_setPc s hreset hrun
    rw [h]
    exact ⟨fun _ he => he, fun hh => hh, fun _ => ⟨rfl, rfl, rfl⟩⟩

/-! ### The codes -/

/-- Settles O44: each kind's code and info are the row 60_exceptions.md R160 gives it. -/
theorem errorCodesAndInfo : Obligations.ErrorCodesAndInfo :=
  ⟨fun _ => ⟨rfl, rfl⟩, fun _ => ⟨rfl, rfl⟩, fun _ => ⟨rfl, rfl⟩, fun _ => ⟨rfl, rfl⟩, ⟨rfl, rfl⟩,
    fun _ => ⟨rfl, rfl⟩, fun _ => ⟨rfl, rfl⟩, rfl⟩

end Sys2Proof.Machine
end

section
/-! PROOFS. The reset and hazards family: construction and reset, what the host's operations answer, the program load and the
boot after it, and the invariant of every state the host can reach. -/

namespace Sys2Proof.Machine

/-! ### Registers after construction and reset -/

/-- Every register holds 0 after construction (10_state.md R31). -/
theorem State.ofCapacity_regs_getElem (n k : Nat) (hk : k < Config.nreg) : (State.ofCapacity n).regs[k] = 0 :=
  Vector.getElem_replicate hk

/-- Every register holds 0 after `reset` (70_reset_and_hazards.md R191). -/
theorem State.resetCpu_regs_getElem (s : State) (k : Nat) (hk : k < Config.nreg) : s.resetCpu.regs[k] = 0 :=
  Vector.getElem_replicate hk

/-- `reset` gives a machine just constructed its own state (70_reset_and_hazards.md R192). -/
@[simp] theorem State.resetCpu_ofCapacity (n : Nat) : (State.ofCapacity n).resetCpu = State.ofCapacity n := rfl

/-! ### The read-only view -/

/-- The view holds as many cells as the memory (20_memory.md R44). -/
@[simp] theorem Memory.length_view (m : Memory) : m.view.length = m.capacity := by
  rw [Memory.view, List.length_map, List.length_range]

/-- The view's entries are the cells in address order (20_memory.md R44). -/
theorem Memory.getElem_view (m : Memory) (k : Nat) (hk : k < m.view.length) : m.view[k] = m.cell k := by
  simp only [Memory.view, List.getElem_map, List.getElem_range]

/-! ### The status read -/

/-- The status of a machine with nothing latched (70_reset_and_hazards.md R198). -/
theorem State.status_of_no_fault {s : State} (h : s.fault = none) : s.status = ⟨s.halted, s.pc, 0, none⟩ := by
  rw [State.status, h]
  rfl

/-- The status of a latched machine reports the error's code and info (70_reset_and_hazards.md R198). -/
theorem State.status_of_fault {s : State} {e : MachineError} (h : s.fault = some e) :
    s.status = ⟨s.halted, s.pc, e.code, e.info⟩ := by
  rw [State.status, h]
  rfl

/-! ### `loadProgram` -/

/-- A program longer than the memory is refused (70_reset_and_hazards.md R194). -/
theorem loadProgram_of_too_long {bytes : List Int} {s : State} (h : s.mem.capacity < bytes.length) :
    loadProgram bytes s = (.failed (.programTooLarge bytes.length), s) := by
  rw [loadProgram, if_pos h]

/-- A program that fits and whose writes all succeed is loaded, and `pc` cleared. -/
theorem loadProgram_of_writeAll_ok {bytes : List Int} {s : State} {m : Memory} (hl : bytes.length ≤ s.mem.capacity)
    (h : s.mem.writeAll 0 bytes = (m, none)) : loadProgram bytes s = (.done, (s.setMem m).setPc 0) := by
  simp only [loadProgram, if_neg (Nat.not_lt.mpr hl), h]

/-- A program that fits and has a write that fails leaves the memory that write was made to, and `pc`. -/
theorem loadProgram_of_writeAll_error {bytes : List Int} {s : State} {m : Memory} {e : MachineError}
    (hl : bytes.length ≤ s.mem.capacity) (h : s.mem.writeAll 0 bytes = (m, some e)) :
    loadProgram bytes s = (.failed e, s.setMem m) := by
  simp only [loadProgram, if_neg (Nat.not_lt.mpr hl), h]

/-- A program of byte values that fits is written from address 0, the tail of memory kept (70_reset_and_hazards.md R194). -/
theorem loadProgram_of_bytes {bytes : List Int} {s : State} (hw : s.mem.wf) (hl : bytes.length ≤ s.mem.capacity)
    (hv : ∀ v ∈ bytes, 0 ≤ v ∧ v < 256) :
    ∃ m : Memory, loadProgram bytes s = (.done, (s.setMem m).setPc 0) ∧ m.capacity = s.mem.capacity ∧
      (∀ (k : Nat) (hk : k < bytes.length), ((m.cell k).toNat : Int) = bytes[k]) ∧
      ∀ k : Nat, bytes.length ≤ k → m.cell k = s.mem.cell k := by
  obtain ⟨m, hall, -, hcap, hcells, htail⟩ := s.mem.writeAll_of_bytes 0 bytes hw (by omega) hv
  simp only [Nat.zero_add] at hcells htail
  exact ⟨m, loadProgram_of_writeAll_ok hl hall, hcap, hcells, fun k hk => htail k (.inr hk)⟩

/-- A program that fits stops at its first element that is no byte value, the elements before it written
(70_reset_and_hazards.md R194). -/
theorem loadProgram_of_no_byte {bytes : List Int} {s : State} (hw : s.mem.wf) (hl : bytes.length ≤ s.mem.capacity)
    {n : Nat} (hn : n < bytes.length) (hv : ∀ (k : Nat) (hk : k < n), 0 ≤ bytes[k] ∧ bytes[k] < 256)
    (hb : bytes[n] < 0 ∨ 256 ≤ bytes[n]) :
    ∃ m : Memory, loadProgram bytes s = (.failed (.valueRange bytes[n]), s.setMem m) ∧ m.capacity = s.mem.capacity ∧
      (∀ (k : Nat) (hk : k < n), ((m.cell k).toNat : Int) = bytes[k]) ∧
      ∀ k : Nat, n ≤ k → m.cell k = s.mem.cell k := by
  obtain ⟨m, hall, hcap, hcells, htail⟩ := s.mem.writeAll_of_bad 0 bytes hw (by omega) n hn hv hb
  simp only [Nat.zero_add] at hcells htail
  exact ⟨m, loadProgram_of_writeAll_error hl hall, hcap, hcells, fun k hk => htail k (.inr hk)⟩

/-! ### Boot -/

/-- The integers a host hands over for a list of bytes are byte values. -/
theorem byte_range_of_mem_map_toNat {bs : List Byte} {v : Int} (h : v ∈ bs.map fun b => (b.toNat : Int)) :
    0 ≤ v ∧ v < 256 := by
  obtain ⟨b, -, rfl⟩ := List.mem_map.mp h
  have := b.isLt
  omega

/-- A program given as bytes that fit is in the cells from address 0 after its load (70_reset_and_hazards.md R194). -/
theorem loadProgram_map_toNat {bs : List Byte} {s : State} (hw : s.mem.wf) (hl : bs.length ≤ s.mem.capacity) :
    ∃ m : Memory, loadProgram (bs.map fun b => (b.toNat : Int)) s = (.done, (s.setMem m).setPc 0) ∧
      m.capacity = s.mem.capacity ∧ ∀ (k : Nat) (hk : k < bs.length), m.cell k = bs[k] := by
  obtain ⟨m, hload, hcap, hcells, -⟩ := loadProgram_of_bytes hw (by rwa [List.length_map])
    fun _ => byte_range_of_mem_map_toNat (bs := bs)
  refine ⟨m, hload, hcap, fun k hk => BitVec.eq_of_toNat_eq (Int.ofNat_inj.mp ?_)⟩
  rw [hcells k (by rwa [List.length_map]), List.getElem_map]

/-- A running machine with nothing latched, and with an instruction's encoding in the cells from `pc` on, executes that
instruction in its next step (40_execution_loop.md R85). -/
theorem step_of_encode_at_pc {s : State} {i : Instr} (hfault : s.fault = none) (hrunning : s.halted = false)
    (hl : s.pc + (encode i).length ≤ s.mem.capacity)
    (hcells : ∀ (k : Nat) (hk : k < (encode i).length), s.mem.cell (s.pc + k) = (encode i)[k]) :
    step s = exec i (s.setPc (s.pc + i.length)) := by
  have hlen : (encode i).length = i.length := encode_length i
  have hpos := i.length_pos
  have hwindow := s.mem.bytesFrom_of_cells s.pc 3 (encode i) hl (hlen ▸ i.length_le) hcells
  exact step_of_decode_ok ⟨hfault, hrunning, by omega⟩ (hwindow ▸ decode_encode_append i _)

/-! ### What keeps the invariant -/

/-- Another canonical memory of the same capacity keeps the invariant. -/
theorem State.Inv.setMem {s : State} (h : s.Inv) {m : Memory} (hw : m.wf) (hc : m.capacity = s.mem.capacity) :
    (s.setMem m).Inv :=
  { h with
    capacity_pos := hc ▸ h.capacity_pos
    pc_le := hc ▸ h.pc_le
    mem_wf := hw }

/-- `reset` keeps the invariant: it clears what the clauses about `pc` and the latch speak of. -/
theorem State.Inv.resetCpu {s : State} (h : s.Inv) : s.resetCpu.Inv where
  capacity_pos := h.capacity_pos
  pc_le := Nat.zero_le _
  mem_wf := h.mem_wf
  fault_run := nofun
  fault_not_halted := nofun

/-- A sequence of writes to the memory keeps the invariant, whether it ends or fails. -/
theorem State.Inv.writeAll {s : State} (h : s.Inv) (addr : Int) (vs : List Int) :
    (s.setMem (s.mem.writeAll addr vs).1).Inv :=
  h.setMem (s.mem.writeAll_wf addr vs h.mem_wf) (s.mem.writeAll_capacity addr vs)

/-- A host write keeps the invariant. -/
theorem State.Inv.hostWrite {s : State} (h : s.Inv) (addr v : Int) : (hostWrite addr v s).2.Inv := by
  rcases hostWrite_cases addr v s with ⟨m, hw, heq⟩ | ⟨e, -, heq⟩ <;> rw [heq]
  · obtain ⟨hwf, hcap⟩ := Memory.write_wf hw h.mem_wf
    exact h.setMem hwf hcap
  · exact h

/-- `loadProgram` keeps the invariant, whether it loads or fails. -/
theorem State.Inv.loadProgram {s : State} (h : s.Inv) (bytes : List Int) : (loadProgram bytes s).2.Inv := by
  have hall := h.writeAll 0 bytes
  rcases loadProgram_cases bytes s with ⟨-, heq⟩ | ⟨-, m, hw, heq⟩ | ⟨-, m, e, hw, heq⟩ <;> rw [heq]
  · exact h
  · rw [hw] at hall
    exact hall.setPc (Nat.zero_le _)
  · rwa [hw] at hall

/-- A sequence of steps keeps the invariant, since each of them does. -/
theorem StepsTo.inv {n : Nat} {s t : State} (h : StepsTo n s t) (hs : s.Inv) : t.Inv := by
  induction h with
  | zero => exact hs
  | succ n s s' t hstep _ ih => exact ih (everyStepKeepsInv s s' hs hstep)

/-- A `run` transaction keeps the invariant: the state it leaves is reached by steps. -/
theorem State.Inv.hostRun {s : State} (h : s.Inv) : (hostRun s).2.Inv := by
  obtain ⟨n, t, r, -, hsteps, -, hrun⟩ := everyRunEndsWithinMemorySize s
  rw [Machine.hostRun, hrun]
  exact hsteps.inv h

/-- Every transaction keeps the invariant. -/
theorem State.Inv.hostOp {s : State} (h : s.Inv) (op : HostOp) : (hostOp op s).2.Inv := by
  cases op with
  | write addr v => exact h.hostWrite addr v
  | bulkLoad addr vs => exact hostBulkLoad_snd addr vs s ▸ h.writeAll addr vs
  | loadProgram bytes => exact h.loadProgram bytes
  | run => exact h.hostRun
  | reset => exact h.resetCpu
  | read | size | view | getRegisters | isHalted | status => exact h

/-- A machine that construction answers meets the invariant: it answers one only for a positive size (20_memory.md R41). -/
theorem inv_of_construct {size : Int} {s : State} (h : construct size = .ok s) : s.Inv := by
  rcases construct_cases size with ⟨hpos, hok⟩ | ⟨-, herr⟩
  · obtain rfl : State.ofCapacity size.toNat = s := Except.ok.inj (hok.symm.trans h)
    exact State.ofCapacity_inv size.toNat (by omega)
  · cases herr.symm.trans h

/-! ### The statements -/

/-- Settles O47, by induction on how the host reached the state: construction establishes the invariant and every
transaction keeps it. -/
theorem everyReachableStateMeetsInv : Obligations.EveryReachableStateMeetsInv := by
  intro s h
  induction h with
  | construct size s hs => exact inv_of_construct hs
  | hostOp op s _ ih => exact ih.hostOp op

/-- Settles O55: the three outcomes of a load, by the length test and by the first element that is no byte value. -/
theorem loadProgramWritesFromAddressZero : Obligations.LoadProgramWritesFromAddressZero :=
  fun _ _ hw => ⟨loadProgram_of_too_long, loadProgram_of_bytes hw,
    fun hl _ hn hv hb => loadProgram_of_no_byte hw hl hn hv hb⟩

/-- Settles O56: the load puts the instruction's encoding at address 0, where it leaves `pc`. -/
theorem loadedProgramStartsWithItsFirstInstruction : Obligations.LoadedProgramStartsWithItsFirstInstruction := by
  intro i rest s hw hfault hrunning hl
  obtain ⟨m, hload, hcap, hcells⟩ := loadProgram_map_toNat hw hl
  rw [List.length_append] at hl
  have hstep : step ((s.setMem m).setPc 0) = exec i (((s.setMem m).setPc 0).setPc (0 + i.length)) := by
    refine step_of_encode_at_pc hfault hrunning ?_ fun k hk => ?_
    · simp only [State.setPc_pc, State.setPc_mem, State.setMem_mem]
      omega
    · simp only [State.setPc_pc, State.setPc_mem, State.setMem_mem, Nat.zero_add]
      rw [hcells k (by rw [List.length_append]; omega), List.getElem_append_left hk]
  rw [Nat.zero_add] at hstep
  exact ⟨_, hload, rfl, hstep⟩

/-- Settles O52: construction answers by the sign of the size, and what it answers is `State.ofCapacity`. -/
theorem constructionClearsEverything : Obligations.ConstructionClearsEverything := by
  refine ⟨fun size hneg => ?_, fun size hpos => ?_⟩
  · rcases construct_cases size with ⟨hpos, -⟩ | ⟨-, herr⟩
    · omega
    · exact herr
  · rcases construct_cases size with ⟨-, hok⟩ | ⟨hneg, -⟩
    · exact ⟨_, hok, Int.toNat_of_nonneg (by omega), State.ofCapacity_regs_getElem _, rfl, rfl, rfl,
        Memory.cell_empty _, State.resetCpu_ofCapacity _⟩
    · omega

/-- Settles O53: `reset` ends in `State.resetCpu`, field by field. -/
theorem resetClearsTheCpuAndKeepsMemory : Obligations.ResetClearsTheCpuAndKeepsMemory := fun s =>
  ⟨s.resetCpu, rfl, s.resetCpu_pc, s.resetCpu_halted, s.resetCpu_fault, s.resetCpu_regs_getElem, s.resetCpu_mem⟩

/-- Settles O57: both operations answer as the Memory does. -/
theorem hostReadAndWriteAnswer : Obligations.HostReadAndWriteAnswer := by
  intro s addr v
  refine ⟨fun b h => ?_, fun e h => ?_, fun m h => ?_, fun e h => ?_⟩
  · simp only [hostOp, hostRead, h]
  · simp only [hostOp, hostRead, h]
  · simp only [hostOp, hostWrite, h, State.setMem]
  · simp only [hostOp, hostWrite, h]

/-- Settles O58: the status by what is latched, the view by its entries, the others as fields of the state. -/
theorem accessorsReportAndChangeNothing : Obligations.AccessorsReportAndChangeNothing := by
  refine fun s => ⟨rfl, rfl, rfl, fun h => ?_, fun e h => ?_, s.mem.view, rfl, s.mem.length_view, s.mem.getElem_view⟩
  · rw [hostOp, State.status_of_no_fault h]
  · rw [hostOp, State.status_of_fault h]

end Sys2Proof.Machine
end

section
/-! PROOFS. The remaining statements: the canonical form determines the memory, and the state `State.reset`. -/

namespace Sys2Proof.Machine

/-! ### The entries of a canonical cell list -/

/-- In a list of strictly rising addresses no entry hides another: each is what a lookup finds. -/
theorem Memory.lookup_of_mem {l : List Host.Cell} (hs : l.Pairwise (fun c d => c.1 < d.1)) {c : Host.Cell}
    (hc : c ∈ l) : Memory.lookup c.1 l = c.2 := by
  induction l with
  | nil => cases hc
  | cons d ds ih =>
    obtain ⟨hlt, hds⟩ := List.pairwise_cons.mp hs
    rcases List.mem_cons.mp hc with rfl | hmem
    · rw [Memory.lookup, if_pos rfl]
    · rw [Memory.lookup, if_neg (hlt c hmem).ne, ih hds hmem]

/-- A value other than the unlisted one comes from an entry of the list. -/
theorem Memory.mem_of_lookup_ne_unlisted {a : Nat} {l : List Host.Cell} (h : Memory.lookup a l ≠ Memory.unlisted) :
    (a, Memory.lookup a l) ∈ l := by
  induction l with
  | nil => exact absurd rfl h
  | cons d ds ih =>
    rw [Memory.lookup] at h ⊢
    by_cases hd : d.1 = a
    · subst hd
      rw [if_pos rfl]
      exact List.mem_cons_self
    · rw [if_neg hd] at h ⊢
      exact List.mem_cons_of_mem d (ih h)

/-- A canonical memory lists exactly the cells that do not hold the unlisted value, each with the value it holds. -/
theorem Memory.mem_cells_iff {m : Memory} (h : m.wf) (c : Host.Cell) :
    c ∈ m.cells ↔ m.cell c.1 = c.2 ∧ c.2 ≠ Memory.unlisted := by
  obtain ⟨hs, hlisted⟩ := h
  constructor
  · intro hc
    exact ⟨Memory.lookup_of_mem hs hc, (hlisted c hc).2⟩
  · rintro ⟨hval, hne⟩
    have hmem : (c.1, m.cell c.1) ∈ m.cells := Memory.mem_of_lookup_ne_unlisted (hval.trans_ne hne)
    rwa [hval] at hmem

/-- Two lists of strictly rising addresses with the same entries are the same list. -/
theorem Memory.cells_eq_of_mem_iff {l l' : List Host.Cell} (hs : l.Pairwise (fun c d => c.1 < d.1))
    (hs' : l'.Pairwise (fun c d => c.1 < d.1)) (h : ∀ c, c ∈ l ↔ c ∈ l') : l = l' := by
  have : Std.Irrefl fun c d : Host.Cell => c.1 < d.1 := ⟨fun c => lt_irrefl c.1⟩
  have : Std.Antisymm fun c d : Host.Cell => c.1 < d.1 := ⟨fun _ _ hlt hgt => absurd hgt hlt.asymm⟩
  exact hs.eq_of_mem_iff hs' h

/-! ### The statements -/

/-- Settles O13: canonical memories with equal cells list the same entries, and rising addresses fix their order. -/
theorem canonicalMemoriesWithEqualCellsAreEqual : Obligations.CanonicalMemoriesWithEqualCellsAreEqual := by
  intro m m' hwf hwf' hcap hcell
  have hcells : m.cells = m'.cells := Memory.cells_eq_of_mem_iff hwf.1 hwf'.1 fun c => by
    rw [Memory.mem_cells_iff hwf, Memory.mem_cells_iff hwf', hcell]
  cases m
  congr

/-- Settles O54: 65536 is a positive size, the model's own (log entry 1), and `reset` keeps a machine just constructed. -/
theorem resetStateIsConstruction : Obligations.ResetStateIsConstruction := by
  refine ⟨?_, State.resetCpu_ofCapacity Config.memSize⟩
  rcases construct_cases 65536 with ⟨-, hok⟩ | ⟨hneg, -⟩
  · exact hok
  · omega

end Sys2Proof.Machine
end
